-- ==== Sys2Proof/Word.lean ====
section
/-!
DEFINITION. The word types of the core: the 32-bit word, the byte, and the 5-bit register index.
-/

namespace Sys2Proof

/-- "Word: a fixed 32-bit unsigned quantity" (00_scope.md R6, R15: `u32`). -/
abbrev Word := BitVec 32

/-- The addressable unit of both memories (10_state.md R27). -/
abbrev Byte := BitVec 8

/-- A register index, "addressed by a 5-bit index" (10_state.md R20). -/
abbrev RegIdx := BitVec 5

end Sys2Proof
end

