-- ==== Sys2Proof/Machine/Flags.lean ====
section
/-!
DEFINITION. The one flag of the core, the ALU's zero output (10_state.md R26, 40_units.md R101). No other flag exists and
no instruction reads or writes this one: it is carried in `exmem.zero` to decide a `beq`.
-/

namespace Sys2Proof.Machine

/-- `zero = (result == 0)`, "computed over the result regardless of operation" (R101). -/
def zeroFlag (result : Word) : Bool := result == 0#32

end Sys2Proof.Machine
end

