-- ==== Sys2Proof/Config.lean ====
section
/-!
DEFINITION. What is fixed for a run and is not state (10_state.md R37): the configuration parameters the spec
leaves OPEN (00_scope.md R7 to R10, R12), and the oracle behind `draw()` (00_scope.md R17).
-/

namespace Sys2Proof

/-- The byte order of a memory (20_memory.md R53). -/
inductive Endian where
  | little
  | big
  deriving DecidableEq, Repr, Inhabited

/-- The construction-time parameters of the core. Every operation that depends on one takes a `Config`, so that a
claim can be stated for every configuration or for a named one. -/
structure Config where
  /-- `P_FWD_EN`: the forwarding unit drives the ALU operand multiplexers (R7). -/
  fwdEn : Bool
  /-- `P_HDU_EN`: the hazard-detection unit may stall (R8). -/
  hduEn : Bool
  /-- `P_NOR_EN`: the ALU-control unit knows the funct of `nor` (R9). -/
  norEn : Bool
  /-- `P_BRANCH_SQUASH`, 0 to 3: how many of the youngest slots a taken `beq` squashes (R10). -/
  squash : Fin 4
  /-- `P_IMEM_ENDIAN` (R12). -/
  imemEndian : Endian
  /-- `P_DMEM_ENDIAN` (R12). -/
  dmemEndian : Endian
  deriving DecidableEq, Repr, Inhabited

/-- The configuration the machine was built with. It has no value here: whatever is proved of `step` and `exec` holds
for every configuration (assumption 2). -/
opaque Config.machine : Config

/-- `draw()` for an ALU result the source leaves unspecified (00_scope.md R17, 40_units.md R105): a free value, fresh at
each use because the argument, the state's `draws` counter, is never used twice (assumption 3). -/
opaque Config.aluDraw : Nat → Word

/-- `draw()` for the MEM/WB read datum when no read was made (41_pipeline.md R130): a free value, as `Config.aluDraw`. -/
opaque Config.readDraw : Nat → Word

end Sys2Proof
end

