-- ==== Sys2Proof/Syntax.lean ====
section
/-!
DEFINITION. The instructions of the core: one constructor for each of the ten rows of spec/opcode_table.json
(00_scope.md R2). Operand order is that of the spec's assembly, destination first (30_encoding.md R87).
Every operand is a bit field of the word and carries its width in its type. The `shamt` field of an R-type
word is no operand: the hardware never reads it (30_encoding.md R75).
-/

namespace Sys2Proof

inductive Instr where
  /-- `add $rd, $rs, $rt` (42_rtype.md R160). -/
  | add (rd rs rt : RegIdx)
  /-- `sub $rd, $rs, $rt` (42_rtype.md R161). -/
  | sub (rd rs rt : RegIdx)
  /-- `and $rd, $rs, $rt` (42_rtype.md R162). -/
  | and (rd rs rt : RegIdx)
  /-- `or $rd, $rs, $rt` (42_rtype.md R163). -/
  | or (rd rs rt : RegIdx)
  /-- `slt $rd, $rs, $rt` (42_rtype.md R164). -/
  | slt (rd rs rt : RegIdx)
  /-- `nor $rd, $rs, $rt` (42_rtype.md R165; its ALU code is reached only when `P_NOR_EN`). -/
  | nor (rd rs rt : RegIdx)
  /-- `lw $rt, imm($rs)` (43_load_store.md R171). -/
  | lw (rt rs : RegIdx) (imm : BitVec 16)
  /-- `sw $rt, imm($rs)` (43_load_store.md R172). -/
  | sw (rt rs : RegIdx) (imm : BitVec 16)
  /-- `beq $rs, $rt, off` (44_branch.md R176). -/
  | beq (rs rt : RegIdx) (off : BitVec 16)
  /-- `addi $rt, $rs, imm` (45_immediate.md R180). -/
  | addi (rt rs : RegIdx) (imm : BitVec 16)
  deriving DecidableEq, Repr

end Sys2Proof
end

