-- ==== Sys2Proof/WellFormed.lean ====
section
/-!
DEFINITION. When an instruction is well formed. The spec states four bounds on what a programmer writes: a register is
`$0` to `$31`, an immediate is -32768..32767, a branch offset is a signed 16-bit count of words (30_encoding.md R87, 44_branch.md R175).
`Instr` carries each operand at its field's width, so that no `Instr` breaks a bound; the bounds are checks on the
operands as they are written, before they are put into fields.
-/

namespace Sys2Proof

/-- A register number as R87 writes it: `$n`, n decimal, 0..31. -/
def regNumberOk (n : Nat) : Bool := decide (n < 32)

/-- An immediate, displacement or branch offset as R87 writes it: a signed value in -32768..32767. -/
def immediateOk (v : Int) : Bool := decide (-32768 ≤ v) && decide (v ≤ 32767)

/-- Instruction operands as they are written: three register numbers of an R-type instruction. -/
def rOperands (mk : RegIdx → RegIdx → RegIdx → Instr) (rd rs rt : Nat) : Option Instr :=
  if regNumberOk rd && regNumberOk rs && regNumberOk rt then
    some (mk (BitVec.ofNat 5 rd) (BitVec.ofNat 5 rs) (BitVec.ofNat 5 rt))
  else none

/-- Instruction operands as they are written: the two registers of an I-type instruction, in the order its
constructor takes them, and its signed immediate. -/
def iOperands (mk : RegIdx → RegIdx → BitVec 16 → Instr) (r1 r2 : Nat) (imm : Int) : Option Instr :=
  if regNumberOk r1 && regNumberOk r2 && immediateOk imm then
    some (mk (BitVec.ofNat 5 r1) (BitVec.ofNat 5 r2) (BitVec.ofInt 16 imm))
  else none

/-- The registers an instruction names, as numbers. -/
def Instr.registers : Instr → List Nat
  | .add rd rs rt | .sub rd rs rt | .and rd rs rt | .or rd rs rt | .slt rd rs rt | .nor rd rs rt =>
    [rd.toNat, rs.toNat, rt.toNat]
  | .lw rt rs _ | .sw rt rs _ | .addi rt rs _ => [rt.toNat, rs.toNat]
  | .beq rs rt _ => [rs.toNat, rt.toNat]

/-- The signed immediates of an instruction. -/
def Instr.immediates : Instr → List Int
  | .add _ _ _ | .sub _ _ _ | .and _ _ _ | .or _ _ _ | .slt _ _ _ | .nor _ _ _ => []
  | .lw _ _ imm | .sw _ _ imm | .beq _ _ imm | .addi _ _ imm => [imm.toInt]

/-- The bounds of R87 on every operand. It holds of every `Instr` (`Laws/Decode.lean`). -/
def Instr.wellFormed (i : Instr) : Bool := i.registers.all regNumberOk && i.immediates.all immediateOk

end Sys2Proof
end

