-- ==== Sys2Proof/Decode.lean ====
section
/-!
DEFINITION. Instruction encoding (30_encoding.md): the field positions, the opcode and funct numbers in one place, the
byte order of a word, the decoder (total on words and on bytes; what is no instruction of the table is rejected by
name), and the encoder written from the same tables.
-/

namespace Sys2Proof

/-! ## Fields (R71) -/

/-- `instr[31:26]`. -/
def opcodeOf (w : Word) : BitVec 6 := w.extractLsb' 26 6
/-- `instr[25:21]`. -/
def rsOf (w : Word) : RegIdx := w.extractLsb' 21 5
/-- `instr[20:16]`. -/
def rtOf (w : Word) : RegIdx := w.extractLsb' 16 5
/-- `instr[15:11]`. -/
def rdOf (w : Word) : RegIdx := w.extractLsb' 11 5
/-- `instr[10:6]`; no unit of the core reads it (R75). -/
def shamtOf (w : Word) : BitVec 5 := w.extractLsb' 6 5
/-- `instr[5:0]`. -/
def functOf (w : Word) : BitVec 6 := w.extractLsb' 0 6
/-- `instr[15:0]`. -/
def immOf (w : Word) : BitVec 16 := w.extractLsb' 0 16

/-! ## Numbers (R76, R77) -/

def opRType : BitVec 6 := 0x00#6
def opLw : BitVec 6 := 0x23#6
def opSw : BitVec 6 := 0x2B#6
def opBeq : BitVec 6 := 0x04#6
def opAddi : BitVec 6 := 0x08#6

def fnAdd : BitVec 6 := 0x20#6
def fnSub : BitVec 6 := 0x22#6
def fnAnd : BitVec 6 := 0x24#6
def fnOr : BitVec 6 := 0x25#6
def fnSlt : BitVec 6 := 0x2A#6
def fnNor : BitVec 6 := 0x27#6

/-! ## Decoder -/

/-- What a 32-bit word is (R85): an instruction of the table, an R-type word whose funct is in no row (R83), or a word
with a reserved opcode (R82). The last two are no `Instr`; the core still runs them (`seqWord`, `clock`). The funct of
`nor` decodes to `nor` whatever `P_NOR_EN` is: what the flag changes is the ALU-control unit (R84). -/
inductive Decoded where
  | instr (i : Instr)
  | unsupportedFunct (funct : BitVec 6)
  | reservedOpcode (opcode : BitVec 6)
  deriving DecidableEq, Repr

/-- The R-type rows of R77. -/
def decodeRType (w : Word) : Decoded :=
  if functOf w = fnAdd then .instr (.add (rdOf w) (rsOf w) (rtOf w))
  else if functOf w = fnSub then .instr (.sub (rdOf w) (rsOf w) (rtOf w))
  else if functOf w = fnAnd then .instr (.and (rdOf w) (rsOf w) (rtOf w))
  else if functOf w = fnOr then .instr (.or (rdOf w) (rsOf w) (rtOf w))
  else if functOf w = fnSlt then .instr (.slt (rdOf w) (rsOf w) (rtOf w))
  else if functOf w = fnNor then .instr (.nor (rdOf w) (rsOf w) (rtOf w))
  else .unsupportedFunct (functOf w)

/-- The rows of R76. -/
def decode (w : Word) : Decoded :=
  if opcodeOf w = opRType then decodeRType w
  else if opcodeOf w = opLw then .instr (.lw (rtOf w) (rsOf w) (immOf w))
  else if opcodeOf w = opSw then .instr (.sw (rtOf w) (rsOf w) (immOf w))
  else if opcodeOf w = opBeq then .instr (.beq (rsOf w) (rtOf w) (immOf w))
  else if opcodeOf w = opAddi then .instr (.addi (rtOf w) (rsOf w) (immOf w))
  else .reservedOpcode (opcodeOf w)

/-! ## Encoder -/

/-- The R-type layout (R72), with `shamt` zero. -/
def rWord (fn : BitVec 6) (rd rs rt : RegIdx) : Word := opRType ++ rs ++ rt ++ rd ++ 0#5 ++ fn

/-- The I-type layout (R73). -/
def iWord (op : BitVec 6) (rs rt : RegIdx) (imm : BitVec 16) : Word := op ++ rs ++ rt ++ imm

/-- The word of an instruction. -/
def encode : Instr → Word
  | .add rd rs rt => rWord fnAdd rd rs rt
  | .sub rd rs rt => rWord fnSub rd rs rt
  | .and rd rs rt => rWord fnAnd rd rs rt
  | .or rd rs rt => rWord fnOr rd rs rt
  | .slt rd rs rt => rWord fnSlt rd rs rt
  | .nor rd rs rt => rWord fnNor rd rs rt
  | .lw rt rs imm => iWord opLw rs rt imm
  | .sw rt rs imm => iWord opSw rs rt imm
  | .beq rs rt off => iWord opBeq rs rt off
  | .addi rt rs imm => iWord opAddi rs rt imm

/-! ## Bytes (20_memory.md R53) -/

/-- The word of the bytes at `A`, `A+1`, `A+2`, `A+3`, in that order. -/
def wordOfBytes (e : Endian) (b0 b1 b2 b3 : Byte) : Word :=
  match e with
  | .little => b3 ++ b2 ++ b1 ++ b0
  | .big => b0 ++ b1 ++ b2 ++ b3

/-- The byte of a word that stands at `A + i`, for `i` in 0..3. -/
def byteOfWord (e : Endian) (w : Word) (i : Nat) : Byte :=
  match e with
  | .little => w.extractLsb' (8 * i) 8
  | .big => w.extractLsb' (8 * (3 - i)) 8

/-- The four bytes of a word, lowest address first. -/
def bytesOfWord (e : Endian) (w : Word) : List Byte :=
  [byteOfWord e w 0, byteOfWord e w 1, byteOfWord e w 2, byteOfWord e w 3]

/-- The decoder on bytes, lowest address first: the word's reading and the bytes after it, or `none` where fewer than
four bytes are left (every instruction is 4 bytes, R70). -/
def decodeBytes (e : Endian) : List Byte → Option (Decoded × List Byte)
  | b0 :: b1 :: b2 :: b3 :: rest => some (decode (wordOfBytes e b0 b1 b2 b3), rest)
  | _ => none

/-- The instruction this decoder reads from the word whose low `nbits` bits are `w` and whose other bits are 0. The word
is laid out and read back little-endian; the reading is the same in either order (20_memory.md R58). -/
def decodeTableWord (nbits w : Nat) : Option Instr :=
  match decodeBytes .little (bytesOfWord .little (BitVec.ofNat 32 (w % 2 ^ nbits))) with
  | some (.instr i, _) => some i
  | _ => none

end Sys2Proof
end

