-- ==== Sys2Proof/Machine/Operands.lean ====
section
/-!
DEFINITION. The combinational primitives (40_units.md R90 to R96) and the operand forms built from them: the
sign-extended immediate, the effective address, the branch target.
-/

namespace Sys2Proof.Machine

/-- `AND` on one-bit values (R90). -/
def and1 (a b : Bool) : Bool := a && b

/-- `AND` on operands of equal width (R90). -/
def andBits {n : Nat} (a b : BitVec n) : BitVec n := a &&& b

/-- `Add`, modulo 2^width, "no overflow signal produced" (R91). -/
def addWrap {n : Nat} (a b : BitVec n) : BitVec n := a + b

/-- `Mux2(in0, in1, select) = select ? in1 : in0` (R92). -/
def mux2 {α : Type} (in0 in1 : α) (select : Bool) : α := if select then in1 else in0

/-- `Mux3` (R93): `none` is the usage error of a selector of 3. -/
def mux3 {α : Type} (in0 in1 in2 : α) (select : BitVec 2) : Option α :=
  if select = 0#2 then some in0
  else if select = 1#2 then some in1
  else if select = 2#2 then some in2
  else none

/-- `sext_32`, from 16 to 32 bits (R94). -/
def sext32 (v : BitVec 16) : Word := v.signExtend 32

/-- `ShiftLeft2(x) = x[29:0] ++ 0b00` (R95). -/
def shiftLeft2 (x : Word) : Word := x.extractLsb' 0 30 ++ 0#2

/-- PC+4 (10_state.md R25). -/
def pcPlus4 (pc : Word) : Word := addWrap pc 4#32

/-- The branch target from the branch's PC+4 and its sign-extended immediate (41_pipeline.md R133, 44_branch.md R175). -/
def branchTarget (pc4 imm : Word) : Word := addWrap pc4 (shiftLeft2 imm)

/-- Whether an address is a multiple of 4, that is `A[1:0] = 0` (20_memory.md R54). -/
def aligned (a : Word) : Bool := a.extractLsb' 0 2 == 0#2

end Sys2Proof.Machine
end

