-- ==== Sys2Proof/Machine/State.lean ====
section
/-!
DEFINITION. The state of the core (10_state.md): the register-transfer state at the start of a clock cycle, as plain
data, with its reset values; and the reasons a step can stop.
-/

namespace Sys2Proof.Machine

/-! ## Memories (R27) -/

/-- A byte memory: the listed bytes, addresses strictly rising, no entry equal to what an unlisted address reads as
(`Memory.wf`). Every map from the 2^32 addresses to bytes has exactly one such list. -/
abbrev Memory := List Host.Cell

/-- What an address that is not listed reads as. DESIGN CHOICE (assumption 5). -/
def unlistedByte : Byte := 0#8

/-- The canonical form of the part of a memory at `lo` and above. -/
def Memory.wfFrom (lo : Nat) : Memory → Bool
  | [] => true
  | (a, b) :: m => decide (lo ≤ a) && decide (a < 2 ^ 32) && decide (b ≠ unlistedByte) && Memory.wfFrom (a + 1) m

/-- The canonical form of a memory. -/
def Memory.wf (m : Memory) : Bool := Memory.wfFrom 0 m

/-! ## Register file (R20) -/

/-- The 32 words of the register file. Every access goes through `RegFile.access` (Machine/Ops.lean), where register 0
is wired to zero. -/
abbrev RegFile := Vector Word 32

/-! ## Pipeline latches (R28 to R32) -/

/-- The control bundle (R30). -/
structure Ctl where
  regDst : Bool
  branch : Bool
  memRead : Bool
  memToReg : Bool
  aluOp : BitVec 2
  memWrite : Bool
  aluSrc : Bool
  regWrite : Bool
  deriving DecidableEq, Repr

/-- `Ctl0`, the all-zero bundle: a bubble (R30). -/
def ctl0 : Ctl :=
  { regDst := false, branch := false, memRead := false, memToReg := false, aluOp := 0#2, memWrite := false,
    aluSrc := false, regWrite := false }

/-- IF/ID (R28): the fetched word and its address plus 4. -/
structure IfId where
  instr : Word
  pc4 : Word
  deriving DecidableEq, Repr

/-- ID/EX (R29). -/
structure IdEx where
  ctl : Ctl
  pc4 : Word
  rd1 : Word
  rd2 : Word
  imm : Word
  rs : RegIdx
  rt : RegIdx
  rd : RegIdx
  funct : BitVec 6
  deriving DecidableEq, Repr

/-- EX/MEM (R31). -/
structure ExMem where
  branch : Bool
  memRead : Bool
  memWrite : Bool
  regWrite : Bool
  memToReg : Bool
  target : Word
  zero : Bool
  aluResult : Word
  writeData : Word
  writeReg : RegIdx
  deriving DecidableEq, Repr

/-- MEM/WB (R32). -/
structure MemWb where
  regWrite : Bool
  memToReg : Bool
  readData : Word
  aluResult : Word
  writeReg : RegIdx
  deriving DecidableEq, Repr

/-! ## Diagnostics and fault records (R34, R35) -/

/-- The five pipeline stages; `ifetch` is IF. -/
inductive Stage where
  | wb
  | mem
  | ex
  | id
  | ifetch
  deriving DecidableEq, Repr

/-- The kinds of diagnostic (60_exceptions.md R195). -/
inductive DiagKind where
  | unknownOpcode
  | unsupportedFunct
  | unsupportedALUOp
  | unsupportedALUCode
  deriving DecidableEq, Repr

/-- One record of `diagLog`: the step number, the stage, the kind and the detail (41_pipeline.md R156). -/
structure Diag where
  cycle : Nat
  stage : Stage
  kind : DiagKind
  detail : Nat
  deriving DecidableEq, Repr

/-- The kinds of fault (60_exceptions.md R191). -/
inductive FaultKind where
  /-- A fetch, `lw` or `sw` at an address that is no multiple of 4. -/
  | misalignedAccess
  /-- A memory access with MemRead and MemWrite both 1. -/
  | memReadWriteConflict
  /-- A Mux3 selector of 3. -/
  | mux3Select
  deriving DecidableEq, Repr

/-- One fault of a step: its kind, the stage that raised it, and the address or the selector (R190, R191). -/
structure FaultEntry where
  kind : FaultKind
  stage : Stage
  info : Word
  deriving DecidableEq, Repr

/-- What a faulting step records (R190): its step number and every fault it raised, in stage order (R193). -/
structure FaultRecord where
  cycle : Nat
  faults : List FaultEntry
  deriving DecidableEq, Repr

/-! ## The state -/

/-- The state record of 10_state.md, and one field of the model's own, `draws`. -/
structure State where
  /-- `x[0..31]` (R20). -/
  x : RegFile
  /-- The address the IF stage fetches from (R24). -/
  pc : Word
  ifid : IfId
  idex : IdEx
  exmem : ExMem
  memwb : MemWb
  /-- `IMEM`: read by IF only, written by the loader only (R27). -/
  imem : Memory
  /-- `DMEM`: read and written by MEM only (R27). -/
  dmem : Memory
  /-- The count of completed cycles (R33). -/
  cycle : Nat
  /-- The append-only diagnostic log, oldest record first (R34). -/
  diagLog : List Diag
  /-- None, or the record of the faulting step after which there is no other (R35). -/
  fault : Option FaultRecord
  /-- The model's own: how many steps have drawn. It is the argument of the free values `Config.aluDraw` and
  `Config.readDraw`, so that each use draws anew (assumption 3). -/
  draws : Nat
  deriving DecidableEq, Repr

/-! ## Why a step stops -/

/-- The one reason the core stops. -/
inductive Fault where
  /-- Raised by `step` and by every instruction's meaning when the state already records a fault: "Once a fault is
  recorded the core takes no further step" (10_state.md R35, 60_exceptions.md R190). The faulting step itself is a next
  state, the state before it with the record. Safe: the hardware's process has ended there. -/
  | stopped (record : FaultRecord)
  deriving DecidableEq, Repr

/-- Why the model gives an instruction no meaning. -/
inductive Refusal where
  /-- Raised only by an arm of `exec` whose instruction has no meaning yet; no arm is left so. Safe: nothing is claimed of
  what it refuses. -/
  | notModelled (mnemonic : String)
  deriving DecidableEq, Repr

/-! ## Reset (R38 to R43) -/

/-- IF/ID at reset (R40), and the flush value of 41_pipeline.md R150. -/
def IfId.cleared : IfId := { instr := 0#32, pc4 := 0#32 }

/-- ID/EX at reset (R40). -/
def IdEx.cleared : IdEx :=
  { ctl := ctl0, pc4 := 0#32, rd1 := 0#32, rd2 := 0#32, imm := 0#32, rs := 0#5, rt := 0#5, rd := 0#5, funct := 0#6 }

/-- EX/MEM at reset (R40). -/
def ExMem.cleared : ExMem :=
  { branch := false, memRead := false, memWrite := false, regWrite := false, memToReg := false, target := 0#32,
    zero := false, aluResult := 0#32, writeData := 0#32, writeReg := 0#5 }

/-- MEM/WB at reset (R40). -/
def MemWb.cleared : MemWb :=
  { regWrite := false, memToReg := false, readData := 0#32, aluResult := 0#32, writeReg := 0#5 }

/-- The launch state the spec's rules R38 to R42 give for an initial PC, a register file and the two memories, with
register 0 zero whatever the file holds. -/
def State.launch (initPc : Word) (x : RegFile) (imem dmem : Memory) : State :=
  { x := x.set 0 0#32, pc := initPc, ifid := IfId.cleared, idex := IdEx.cleared, exmem := ExMem.cleared, memwb := MemWb.cleared,
    imem := imem, dmem := dmem, cycle := 0, diagLog := [], fault := none, draws := 0 }

/-- Reset is the construction of the core (R43). The launch inputs `P_INIT_PC`, `P_REG_INIT`, `P_IMEM_INIT` and
`P_DMEM_INIT` are the host's; here they are 0, zero registers and memories with nothing listed. DESIGN CHOICE
(assumption 4). `construct` (Machine/Loader.lean) takes them as arguments. -/
def State.reset : State := State.launch 0#32 (Vector.replicate 32 0#32) [] []

end Sys2Proof.Machine
end

