-- ==== Sys2Proof/Machine/Ops.lean ====
section
/-!
DEFINITION. The named operations over the state: register-file access, memory access, raising a fault (the core's one
abnormal end; it has no exception and no return from one, 60_exceptions.md R197), and logging a diagnostic.
-/

namespace Sys2Proof.Machine

/-- A step's outcome. -/
abbrev Result := Host.Outcome State Fault Refusal

/-! ## Register file (10_state.md R20 to R22) -/

/-- A register's value; register 0 is "wired to the constant zero" (R21). -/
def RegFile.read (x : RegFile) (r : RegIdx) : Word := if r = 0#5 then 0#32 else x[r.toNat]

/-- A register write; "all writes to it [register 0] are silently discarded" (R21). -/
def RegFile.write (x : RegFile) (r : RegIdx) (v : Word) : RegFile := if r = 0#5 then x else x.set r.toNat v

/-- What one register-file access gives back. -/
structure RegAccess where
  outData1 : Word
  outData2 : Word
  file : RegFile
  deriving DecidableEq, Repr

/-- The register file's access contract (R22): the reads observe the state before the write of the same call. -/
def RegFile.access (x : RegFile) (readReg1 readReg2 writeReg : RegIdx) (writeData : Word) (regWrite : Bool) : RegAccess :=
  { outData1 := x.read readReg1, outData2 := x.read readReg2,
    file := if regWrite then x.write writeReg writeData else x }

/-- `x[r]` of a state. -/
def State.reg (s : State) (r : RegIdx) : Word := s.x.read r

/-- `x[r] <- v` on a state. -/
def State.setReg (s : State) (r : RegIdx) (v : Word) : State := { s with x := s.x.write r v }

/-! ## Memory (20_memory.md) -/

/-- The byte at an address. -/
def Memory.read : Memory → Nat → Byte
  | [], _ => unlistedByte
  | (k, b) :: m, a => if k = a then b else Memory.read m a

/-- An entry in front of a memory, left out where it says what an unlisted address says. -/
def Memory.consCell (a : Nat) (b : Byte) (m : Memory) : Memory := if b = unlistedByte then m else (a, b) :: m

/-- Set the byte at an address, keeping the canonical form. -/
def Memory.write : Memory → Nat → Byte → Memory
  | [], a, b => Memory.consCell a b []
  | (k, c) :: m, a, b =>
    if a < k then Memory.consCell a b ((k, c) :: m)
    else if a = k then Memory.consCell a b m
    else (k, c) :: Memory.write m a b

/-- The word of the four bytes at `A` and up, whatever `A` (R53). `A + i` does not wrap where `A` is aligned (R56). -/
def Memory.readWord (e : Endian) (m : Memory) (a : Word) : Word :=
  wordOfBytes e (m.read a.toNat) (m.read (a.toNat + 1)) (m.read (a.toNat + 2)) (m.read (a.toNat + 3))

/-- The four bytes of a word, written at `A` and up (R53). -/
def Memory.writeWord (e : Endian) (m : Memory) (a : Word) (w : Word) : Memory :=
  (((m.write a.toNat (byteOfWord e w 0)).write (a.toNat + 1) (byteOfWord e w 1)).write
    (a.toNat + 2) (byteOfWord e w 2)).write (a.toNat + 3) (byteOfWord e w 3)

/-- `MemRead(M, A, 4)` (R55); `none` is `Fault(MisalignedAccess, A)`. -/
def memRead (e : Endian) (m : Memory) (a : Word) : Option Word :=
  if aligned a then some (m.readWord e a) else none

/-- `MemWrite(M, A, 4, W)` (R56); `none` is `Fault(MisalignedAccess, A)`. -/
def memWrite (e : Endian) (m : Memory) (a : Word) (w : Word) : Option Memory :=
  if aligned a then some (m.writeWord e a w) else none

/-- What an access of the memory component gives: the memory after it and the word read, if one was, or a fault. -/
inductive MemAccess where
  | done (mem : Memory) (readData : Option Word)
  | failed (kind : FaultKind)
  deriving DecidableEq, Repr

/-- The memory component's access contract (R52). -/
def Memory.access (e : Endian) (m : Memory) (a writeData : Word) (rd wr : Bool) : MemAccess :=
  match rd, wr with
  | true, false =>
    match memRead e m a with
    | some w => .done m (some w)
    | none => .failed .misalignedAccess
  | false, true =>
    match memWrite e m a writeData with
    | some m' => .done m' none
    | none => .failed .misalignedAccess
  | false, false => .done m none
  | true, true => .failed .memReadWriteConflict

/-- The memory after an access; a failed one reads and writes no byte (R54). -/
def MemAccess.memOr (r : MemAccess) (m : Memory) : Memory :=
  match r with
  | .done m' _ => m'
  | .failed _ => m

/-- The read-data output of an access, `drawn` where no read was made (41_pipeline.md R130). -/
def MemAccess.dataOr (r : MemAccess) (drawn : Word) : Word :=
  match r with
  | .done _ (some w) => w
  | _ => drawn

/-- The faults of an access made in `stage` at `a`. -/
def MemAccess.faults (r : MemAccess) (stage : Stage) (a : Word) : List FaultEntry :=
  match r with
  | .done _ _ => []
  | .failed kind => [{ kind := kind, stage := stage, info := a }]

/-! ## Faults and diagnostics -/

/-- A step is taken only while no fault is recorded (10_state.md R35, 41_pipeline.md R126). -/
def ifRunning (s : State) (r : Result) : Result :=
  match s.fault with
  | some record => .fault (.stopped record)
  | none => r

/-- `raise Fault(...)`: the step commits nothing and records its faults (60_exceptions.md R190, 41_pipeline.md R155). -/
def State.raise (s : State) (faults : List FaultEntry) : State :=
  { s with fault := some { cycle := s.cycle + 1, faults := faults } }

/-- A diagnostic of the step taken from `s` (41_pipeline.md R156): its number is `S.cycle + 1`. -/
def State.diag (s : State) (stage : Stage) (kind : DiagKind) (detail : Nat) : Diag :=
  { cycle := s.cycle + 1, stage := stage, kind := kind, detail := detail }

/-- `diag(kind, info)`: append a record (60_exceptions.md R195). -/
def State.log (s : State) (ds : List Diag) : State := { s with diagLog := s.diagLog ++ ds }

/-! ## The end of an instruction in the reference step (41_pipeline.md R120) -/

/-- `pc <- pc + 4`, and the step's draws are used up. -/
def State.advance (s : State) : State := { s with pc := pcPlus4 s.pc, draws := s.draws + 1 }

/-- Write `v` to `x[dst]` and go on to the next instruction: the common end of every instruction with a destination. -/
def writeBack (dst : RegIdx) (v : Word) (s : State) : Result := ifRunning s (.next (s.setReg dst v).advance)

end Sys2Proof.Machine
end

