-- ==== Sys2Proof/Machine/Alu.lean ====
section
/-!
DEFINITION. The ALU, the control decoder and the ALU-control unit (40_units.md R97 to R114, 30_encoding.md R80, R81).
-/

namespace Sys2Proof.Machine

/-! ## ALU operations (R98 to R104) -/

/-- AND (R98). -/
def aluAnd (a b : Word) : Word := andBits a b
/-- OR (R99). -/
def aluOr (a b : Word) : Word := a ||| b
/-- ADD, wrapping (R100). -/
def aluAdd (a b : Word) : Word := addWrap a b
/-- SUBTRACT, "two's-complement: invert + add 1" (R102). -/
def aluSub (a b : Word) : Word := addWrap (addWrap a (~~~b)) 1#32
/-- SET-LESS-THAN (R103), as the source computes it: operands of unlike sign are classified by the sign bit of `a`, those
of like sign by the sign bit of the difference. -/
def aluSlt (a b : Word) : Word :=
  let less := if a.msb != b.msb then a.msb else (aluSub a b).msb
  if less then 1#32 else 0#32
/-- NOR (R104). -/
def aluNor (a b : Word) : Word := ~~~(a ||| b)

/-! ## ALU (R97, R105) -/

def codeAnd : BitVec 4 := 0b0000#4
def codeOr : BitVec 4 := 0b0001#4
def codeAdd : BitVec 4 := 0b0010#4
def codeSub : BitVec 4 := 0b0110#4
def codeSlt : BitVec 4 := 0b0111#4
def codeNor : BitVec 4 := 0b1100#4

/-- The table of R97; `none` is an unsupported code. -/
def aluOperation (code : BitVec 4) : Option (Word → Word → Word) :=
  if code = codeAnd then some aluAnd
  else if code = codeOr then some aluOr
  else if code = codeAdd then some aluAdd
  else if code = codeSub then some aluSub
  else if code = codeSlt then some aluSlt
  else if code = codeNor then some aluNor
  else none

/-- What the ALU path gives in a step: the result, the zero flag, and the diagnostic it raises, if any. -/
structure AluOut where
  result : Word
  zero : Bool
  diag : Option (DiagKind × Nat)
  deriving DecidableEq, Repr

/-- An ALU output with its zero flag (R101). -/
def AluOut.of (result : Word) (diag : Option (DiagKind × Nat)) : AluOut :=
  { result := result, zero := zeroFlag result, diag := diag }

/-- The ALU on a 4-bit control code; `drawn` is its result for an unsupported code (R105). -/
def alu (code : BitVec 4) (a b drawn : Word) : AluOut :=
  match aluOperation code with
  | some op => AluOut.of (op a b) none
  | none => AluOut.of drawn (some (.unsupportedALUCode, code.toNat))

/-! ## ALU-control unit (R108 to R113) -/

/-- What the unit gives: a 4-bit code, or "unsupported" with the diagnostic it raises. -/
inductive AluControl where
  | code (c : BitVec 4)
  | unsupported (kind : DiagKind) (detail : Nat)
  deriving DecidableEq, Repr

/-- The unit's reading of `funct` for an R-type instruction (R111, R113). -/
def aluControlRType (c : Config) (funct : BitVec 6) : AluControl :=
  if funct = fnAdd then .code codeAdd
  else if funct = fnSub then .code codeSub
  else if funct = fnAnd then .code codeAnd
  else if funct = fnOr then .code codeOr
  else if funct = fnSlt then .code codeSlt
  else if funct = fnNor ∧ c.norEn = true then .code codeNor
  else .unsupported .unsupportedFunct funct.toNat

/-- The ALU-control unit: a function of ALUOp and funct (R108 to R112). -/
def aluControl (c : Config) (aluOp : BitVec 2) (funct : BitVec 6) : AluControl :=
  if aluOp = 0b00#2 then .code codeAdd
  else if aluOp = 0b01#2 then .code codeSub
  else if aluOp = 0b10#2 then aluControlRType c funct
  else .unsupported .unsupportedALUOp aluOp.toNat

/-- `AluPath` (R114), with the value `draw()` takes in this step. -/
def aluPath (c : Config) (a b : Word) (aluOp : BitVec 2) (funct : BitVec 6) (drawn : Word) : AluOut :=
  match aluControl c aluOp funct with
  | .code code => alu code a b drawn
  | .unsupported kind detail => AluOut.of drawn (some (kind, detail))

/-- The diagnostic record of an ALU output in EX (R113, 41_pipeline.md R156). -/
def AluOut.diags (o : AluOut) (s : State) : List Diag :=
  match o.diag with
  | some (kind, detail) => [s.diag .ex kind detail]
  | none => []

/-! ## Control decoder (R106, 30_encoding.md R80, R82) -/

/-- The bundle of an R-type word. -/
def ctlRType : Ctl :=
  { regDst := true, aluSrc := false, memToReg := false, regWrite := true, memRead := false, memWrite := false,
    branch := false, aluOp := 0b10#2 }
/-- The bundle of `lw`. -/
def ctlLw : Ctl :=
  { regDst := false, aluSrc := true, memToReg := true, regWrite := true, memRead := true, memWrite := false,
    branch := false, aluOp := 0b00#2 }
/-- The bundle of `sw`. -/
def ctlSw : Ctl :=
  { regDst := false, aluSrc := true, memToReg := false, regWrite := false, memRead := false, memWrite := true,
    branch := false, aluOp := 0b00#2 }
/-- The bundle of `beq`. -/
def ctlBeq : Ctl :=
  { regDst := false, aluSrc := false, memToReg := false, regWrite := false, memRead := false, memWrite := false,
    branch := true, aluOp := 0b01#2 }
/-- The bundle of `addi`. -/
def ctlAddi : Ctl :=
  { regDst := false, aluSrc := true, memToReg := false, regWrite := true, memRead := false, memWrite := false,
    branch := false, aluOp := 0b00#2 }

/-- The bundle of an opcode; `none` is a reserved opcode. -/
def controlRow (opcode : BitVec 6) : Option Ctl :=
  if opcode = opRType then some ctlRType
  else if opcode = opLw then some ctlLw
  else if opcode = opSw then some ctlSw
  else if opcode = opBeq then some ctlBeq
  else if opcode = opAddi then some ctlAddi
  else none

/-- `Control(opcode)` (R106): a reserved opcode gives `Ctl0`. -/
def controlBundle (opcode : BitVec 6) : Ctl :=
  match controlRow opcode with
  | some ctl => ctl
  | none => ctl0

/-- The decoder's diagnostic in ID: `UnknownOpcode` for a reserved opcode (R82). -/
def controlDiags (opcode : BitVec 6) (s : State) : List Diag :=
  match controlRow opcode with
  | some _ => []
  | none => [s.diag .id .unknownOpcode opcode.toNat]

end Sys2Proof.Machine
end

