-- ==== Sys2Proof/Machine/Branch.lean ====
section
/-!
DEFINITION. Control transfer (44_branch.md R175, R176): the *Architectural effect* of `beq`.
-/

namespace Sys2Proof.Machine

/-- `taken`: the difference of the two registers is zero (R176). -/
def branchTaken (s : State) (rs rt : RegIdx) : Bool := zeroFlag (aluSub (s.reg rs) (s.reg rt))

/-- `beq $rs, $rt, off` (R176): `pc <- taken ? target : pc + 4`. -/
def execBeq (rs rt : RegIdx) (off : BitVec 16) (s : State) : Result :=
  ifRunning s (.next
    { s with
      pc := mux2 (pcPlus4 s.pc) (branchTarget (pcPlus4 s.pc) (sext32 off)) (branchTaken s rs rt)
      draws := s.draws + 1 })

end Sys2Proof.Machine
end

