-- ==== Sys2Proof/Machine/Immediate.lean ====
section
/-!
DEFINITION. Immediate arithmetic (45_immediate.md R180): the *Architectural effect* of `addi`.
-/

namespace Sys2Proof.Machine

/-- `addi $rt, $rs, imm` (R180): wraps, no overflow trap. -/
def execAddi (rt rs : RegIdx) (imm : BitVec 16) (s : State) : Result :=
  writeBack rt (aluAdd (s.reg rs) (sext32 imm)) s

end Sys2Proof.Machine
end

