-- ==== Sys2Proof/Machine/LoadStore.lean ====
section
/-!
DEFINITION. Loads and stores (43_load_store.md R170 to R172): the *Architectural effect* of `lw` and `sw`.
-/

namespace Sys2Proof.Machine

/-- `EA = (x[rs] + sext_32(imm16)) mod 2^32` (R170). -/
def effectiveAddress (s : State) (rs : RegIdx) (imm : BitVec 16) : Word := aluAdd (s.reg rs) (sext32 imm)

/-- `lw` from a `DMEM` of a given byte order (R171). -/
def loadWord (e : Endian) (rt rs : RegIdx) (imm : BitVec 16) (s : State) : Result :=
  match memRead e s.dmem (effectiveAddress s rs imm) with
  | some v => writeBack rt v s
  | none =>
    ifRunning s (.next (s.raise [{ kind := .misalignedAccess, stage := .mem, info := effectiveAddress s rs imm }]))

/-- `lw $rt, imm($rs)` (R171). -/
def execLw (rt rs : RegIdx) (imm : BitVec 16) (s : State) : Result := loadWord Config.machine.dmemEndian rt rs imm s

/-- `sw` to a `DMEM` of a given byte order (R172). -/
def storeWord (e : Endian) (rt rs : RegIdx) (imm : BitVec 16) (s : State) : Result :=
  match memWrite e s.dmem (effectiveAddress s rs imm) (s.reg rt) with
  | some m => ifRunning s (.next { s with dmem := m }.advance)
  | none =>
    ifRunning s (.next (s.raise [{ kind := .misalignedAccess, stage := .mem, info := effectiveAddress s rs imm }]))

/-- `sw $rt, imm($rs)` (R172). -/
def execSw (rt rs : RegIdx) (imm : BitVec 16) (s : State) : Result := storeWord Config.machine.dmemEndian rt rs imm s

end Sys2Proof.Machine
end

