-- ==== Sys2Proof/Machine/RType.lean ====
section
/-!
DEFINITION. The R-type ALU instructions (42_rtype.md R160 to R165): the *Architectural effect* of each, which is the
sequential reference step of 41_pipeline.md R120 for that instruction.
-/

namespace Sys2Proof.Machine

/-- `add $rd, $rs, $rt` (R160): wraps, no overflow trap. -/
def execAdd (rd rs rt : RegIdx) (s : State) : Result := writeBack rd (aluAdd (s.reg rs) (s.reg rt)) s

/-- `sub $rd, $rs, $rt` (R161): wraps, no overflow trap. -/
def execSub (rd rs rt : RegIdx) (s : State) : Result := writeBack rd (aluSub (s.reg rs) (s.reg rt)) s

/-- `and $rd, $rs, $rt` (R162). -/
def execAnd (rd rs rt : RegIdx) (s : State) : Result := writeBack rd (aluAnd (s.reg rs) (s.reg rt)) s

/-- `or $rd, $rs, $rt` (R163). -/
def execOr (rd rs rt : RegIdx) (s : State) : Result := writeBack rd (aluOr (s.reg rs) (s.reg rt)) s

/-- `slt $rd, $rs, $rt` (R164): a signed comparison. -/
def execSlt (rd rs rt : RegIdx) (s : State) : Result := writeBack rd (aluSlt (s.reg rs) (s.reg rt)) s

/-- An R-type word with an unsupported funct (30_encoding.md R83): the drawn value goes to `x[rd]` and the diagnostic is
logged. -/
def unsupportedRType (funct : BitVec 6) (rd : RegIdx) (s : State) : Result :=
  ifRunning s
    (.next ((s.setReg rd (Config.aluDraw s.draws)).advance.log [s.diag .ex .unsupportedFunct funct.toNat]))

/-- `nor` in a given configuration (R165, R84). -/
def norIn (c : Config) (rd rs rt : RegIdx) (s : State) : Result :=
  if c.norEn then writeBack rd (aluNor (s.reg rs) (s.reg rt)) s else unsupportedRType fnNor rd s

/-- `nor $rd, $rs, $rt` (R165). -/
def execNor (rd rs rt : RegIdx) (s : State) : Result := norIn Config.machine rd rs rt s

end Sys2Proof.Machine
end

