-- ==== Sys2Proof/Machine/Pipeline.lean ====
section
/-!
DEFINITION. The clock step of the pipelined core (41_pipeline.md R125, R126): every stage a function of the state at the
start of the step, all state elements updated together at its end; with the forwarding unit, the hazard-detection unit
and the branch squash.
-/

namespace Sys2Proof.Machine

/-! ## WB (R127) -/

/-- The write-back value: the MemToReg mux. -/
def wbValue (s : State) : Word := mux2 s.memwb.aluResult s.memwb.readData s.memwb.memToReg

/-- `x'`: the register file after this step's WB write. -/
def wbFile (s : State) : RegFile := (s.x.access 0#5 0#5 s.memwb.writeReg (wbValue s) s.memwb.regWrite).file

/-! ## MEM (R128 to R130) -/

/-- `pcSrc`: a taken `beq` is in MEM (R128). -/
def pcSrc (s : State) : Bool := and1 s.exmem.branch s.exmem.zero

/-- MEM's data-memory access (R129). -/
def dmemAccess (c : Config) (s : State) : MemAccess :=
  s.dmem.access c.dmemEndian s.exmem.aluResult s.exmem.writeData s.exmem.memRead s.exmem.memWrite

/-- `memwb'` (R130). -/
def memWbNext (c : Config) (s : State) : MemWb :=
  { regWrite := s.exmem.regWrite, memToReg := s.exmem.memToReg,
    readData := (dmemAccess c s).dataOr (Config.readDraw s.draws), aluResult := s.exmem.aluResult,
    writeReg := s.exmem.writeReg }

/-! ## Forwarding unit (R140 to R143) -/

/-- A forwarding selector for the register index `r` of the instruction in EX: 2 takes the EX/MEM value, 1 the MEM/WB
value, 0 the value ID read. The nearer producer wins, register 0 is never forwarded, and without `P_FWD_EN` nothing is. -/
def forwardSelect (c : Config) (s : State) (r : RegIdx) : BitVec 2 :=
  if s.exmem.regWrite = true ∧ s.exmem.writeReg ≠ 0#5 ∧ s.exmem.writeReg = r ∧ c.fwdEn = true then 2#2
  else if s.memwb.regWrite = true ∧ s.memwb.writeReg ≠ 0#5 ∧ s.memwb.writeReg = r ∧ c.fwdEn = true then 1#2
  else 0#2

/-- Selector A, for rs (R140). -/
def forwardA (c : Config) (s : State) : BitVec 2 := forwardSelect c s s.idex.rs

/-- Selector B, for rt (R141). -/
def forwardB (c : Config) (s : State) : BitVec 2 := forwardSelect c s s.idex.rt

/-! ## EX (R131, R133) -/

/-- A forwarding multiplexer (R131, R142). -/
def forwardMux (s : State) (latched : Word) (select : BitVec 2) : Option Word :=
  mux3 latched (wbValue s) s.exmem.aluResult select

/-- The fault of a forwarding multiplexer: a selector of 3 (40_units.md R93). -/
def forwardFaults (s : State) (select : BitVec 2) : List FaultEntry :=
  match forwardMux s 0#32 select with
  | some _ => []
  | none => [{ kind := .mux3Select, stage := .ex, info := select.setWidth 32 }]

/-- Operand A. A step whose multiplexer faults commits nothing, so what stands for its output there is never seen. -/
def operandA (c : Config) (s : State) : Word := (forwardMux s s.idex.rd1 (forwardA c s)).getD s.idex.rd1

/-- `bF`: the rt operand after forwarding, which is also the store datum (R131). -/
def operandBF (c : Config) (s : State) : Word := (forwardMux s s.idex.rd2 (forwardB c s)).getD s.idex.rd2

/-- Operand B, after the ALUSrc mux. -/
def operandB (c : Config) (s : State) : Word := mux2 (operandBF c s) s.idex.imm s.idex.ctl.aluSrc

/-- The ALU path in EX. -/
def exAlu (c : Config) (s : State) : AluOut :=
  aluPath c (operandA c s) (operandB c s) s.idex.ctl.aluOp s.idex.funct (Config.aluDraw s.draws)

/-- `exmem'` (R133), before a squash. -/
def exMemNext (c : Config) (s : State) : ExMem :=
  { branch := s.idex.ctl.branch, memRead := s.idex.ctl.memRead, memWrite := s.idex.ctl.memWrite,
    regWrite := s.idex.ctl.regWrite, memToReg := s.idex.ctl.memToReg,
    target := branchTarget s.idex.pc4 s.idex.imm, zero := (exAlu c s).zero, aluResult := (exAlu c s).result,
    writeData := operandBF c s, writeReg := mux2 s.idex.rt s.idex.rd s.idex.ctl.regDst }

/-! ## Hazard-detection unit (R145, R146) -/

/-- `stall`: a load is in EX, its rt is a register field of the word in ID, and `P_HDU_EN`. -/
def stall (c : Config) (s : State) : Bool :=
  s.idex.ctl.memRead && (s.idex.rt == rsOf s.ifid.instr || s.idex.rt == rtOf s.ifid.instr) && c.hduEn

/-! ## ID (R132, R134, R135) -/

/-- ID's register-file access: both read ports, no write, after WB's write of the same step (R134). -/
def idAccess (s : State) : RegAccess :=
  (wbFile s).access (rsOf s.ifid.instr) (rtOf s.ifid.instr) 0#5 0#32 false

/-- `idex'`, before a squash. -/
def idExNext (c : Config) (s : State) : IdEx :=
  { ctl := mux2 (controlBundle (opcodeOf s.ifid.instr)) ctl0 (stall c s), pc4 := s.ifid.pc4,
    rd1 := (idAccess s).outData1, rd2 := (idAccess s).outData2, imm := sext32 (immOf s.ifid.instr),
    rs := rsOf s.ifid.instr, rt := rtOf s.ifid.instr, rd := rdOf s.ifid.instr, funct := functOf s.ifid.instr }

/-! ## IF (R136 to R138) -/

/-- The word at the start-of-step PC; `none` is a misaligned PC. -/
def fetchWord (c : Config) (s : State) : Option Word := memRead c.imemEndian s.imem s.pc

/-- `ifid'`, before a squash: held under a stall. -/
def ifIdNext (c : Config) (s : State) : IfId :=
  if stall c s = true then s.ifid else { instr := (fetchWord c s).getD 0#32, pc4 := pcPlus4 s.pc }

/-- The fault of a fetch; under a stall no fetch is made (R137). -/
def fetchFaults (c : Config) (s : State) : List FaultEntry :=
  if stall c s = true then []
  else match fetchWord c s with
    | some _ => []
    | none => [{ kind := .misalignedAccess, stage := .ifetch, info := s.pc }]

/-- `pc'`, before a squash: the redirect mux, then the PC-write-enable mux (R138). -/
def pcNext (c : Config) (s : State) : Word :=
  mux2 s.pc (mux2 (pcPlus4 s.pc) s.exmem.target (pcSrc s)) (!stall c s)

/-! ## Branch squash (R150, R151) -/

/-- Slot 3: the control bits of EX/MEM cleared. -/
def ExMem.squashed (l : ExMem) : ExMem :=
  { l with branch := false, memRead := false, memWrite := false, regWrite := false, memToReg := false }

/-- The squash a taken `beq` in MEM makes in the latches `t` written by the step from `s`. -/
def squash (c : Config) (s t : State) : State :=
  if pcSrc s = true ∧ 2 ≤ c.squash.val then
    { t with
      pc := s.exmem.target
      ifid := IfId.cleared
      idex := { t.idex with ctl := ctl0 }
      exmem := if c.squash.val = 3 then t.exmem.squashed else t.exmem }
  else if pcSrc s = true ∧ c.squash.val = 1 ∧ stall c s = false then { t with ifid := IfId.cleared }
  else t

/-! ## The step -/

/-- Every fault raised in the step, in stage order WB, MEM, EX, ID, IF (60_exceptions.md R193). -/
def stepFaults (c : Config) (s : State) : List FaultEntry :=
  (dmemAccess c s).faults .mem s.exmem.aluResult
    ++ (forwardFaults s (forwardA c s) ++ forwardFaults s (forwardB c s)) ++ fetchFaults c s

/-- The diagnostics of the step, EX before ID (R156). -/
def stepDiags (c : Config) (s : State) : List Diag :=
  (exAlu c s).diags s ++ controlDiags (opcodeOf s.ifid.instr) s

/-- `S'` of a step that does not fault (R126). -/
def commit (c : Config) (s : State) : State :=
  squash c s
    { s with
      x := wbFile s
      pc := pcNext c s
      ifid := ifIdNext c s
      idex := idExNext c s
      exmem := exMemNext c s
      memwb := memWbNext c s
      dmem := (dmemAccess c s).memOr s.dmem
      cycle := s.cycle + 1
      diagLog := s.diagLog ++ stepDiags c s
      draws := s.draws + 1 }

/-- `Step(S)` (R126, R155): a step commits whole, or records its faults and commits nothing. -/
def clock (c : Config) (s : State) : Result :=
  ifRunning s (.next (if stepFaults c s = [] then commit c s else s.raise (stepFaults c s)))

/-- The outcome of `n` clock steps: a next state only where each of the `n` steps exists. `runFor` (Machine/Run.lean) gives
the state a run ends in, also where a fault ends it early. -/
def clockRun (c : Config) : Nat → State → Result
  | 0, s => .next s
  | n + 1, s =>
    match clock c s with
    | .next t => clockRun c n t
    | .fault r => .fault r
    | .refused r => .refused r

end Sys2Proof.Machine
end

