-- ==== Sys2Proof/Machine/Step.lean ====
section
/-!
DEFINITION. The step of the machine: one clock edge of the pipelined core, `advanceCycle` (00_scope.md R14,
41_pipeline.md R125), in the configuration the machine was built with.
-/

namespace Sys2Proof.Machine

/-- One clock edge. It never refuses, and it faults only in a state that already records a fault. -/
def step (s : State) : Host.Outcome State Fault Refusal := clock Config.machine s

/-- `s` with the word whose low `nbits` bits are `w`, and whose others are 0, stored in `IMEM` at `pc`, where the next
step's IF stage fetches (41_pipeline.md R137). The step fetches it into IF/ID; its ID, EX, MEM and WB follow in the
steps after (assumption 6). -/
def State.withFetchWord (s : State) (nbits w : Nat) : State :=
  { s with imem := s.imem.writeWord Config.machine.imemEndian s.pc (BitVec.ofNat 32 (w % 2 ^ nbits)) }

end Sys2Proof.Machine
end

