-- ==== Sys2Proof/Machine/Reference.lean ====
section
/-!
DEFINITION. The sequential reference step `SeqStep` (41_pipeline.md R120): the single-cycle datapath that executes one
whole word on the architectural state `pc`, `x`, `IMEM`, `DMEM`. Unlike `exec`, which takes an instruction, it takes any
word: a reserved opcode and an unsupported funct run too (30_encoding.md R82, R83).
-/

namespace Sys2Proof.Machine

/-- The ALU of the reference step for the word `w`: operand B through the ALUSrc mux, operation by ALUOp and funct. -/
def seqAlu (c : Config) (w : Word) (s : State) : AluOut :=
  aluPath c (s.reg (rsOf w)) (mux2 (s.reg (rtOf w)) (sext32 (immOf w)) (controlBundle (opcodeOf w)).aluSrc)
    (controlBundle (opcodeOf w)).aluOp (functOf w) (Config.aluDraw s.draws)

/-- The data-memory access of the reference step for the word `w`. -/
def seqAccess (c : Config) (w : Word) (s : State) : MemAccess :=
  s.dmem.access c.dmemEndian (seqAlu c w s).result (s.reg (rtOf w)) (controlBundle (opcodeOf w)).memRead
    (controlBundle (opcodeOf w)).memWrite

/-- The PC the reference step for the word `w` writes. -/
def seqPc (c : Config) (w : Word) (s : State) : Word :=
  mux2 (pcPlus4 s.pc) (branchTarget (pcPlus4 s.pc) (sext32 (immOf w)))
    (and1 (controlBundle (opcodeOf w)).branch (seqAlu c w s).zero)

/-- The register file after the reference step for the word `w`. -/
def seqFile (c : Config) (w : Word) (s : State) : RegFile :=
  let ctl := controlBundle (opcodeOf w)
  (s.x.access (rsOf w) (rtOf w) (mux2 (rtOf w) (rdOf w) ctl.regDst)
    (mux2 (seqAlu c w s).result ((seqAccess c w s).dataOr (Config.readDraw s.draws)) ctl.memToReg) ctl.regWrite).file

/-- The faults of the reference step for the word `w`. -/
def seqFaults (c : Config) (w : Word) (s : State) : List FaultEntry :=
  (seqAccess c w s).faults .mem (seqAlu c w s).result

/-- The state after the reference step for the word `w`, where nothing faults. -/
def seqCommit (c : Config) (w : Word) (s : State) : State :=
  { s with
    x := seqFile c w s
    pc := seqPc c w s
    dmem := (seqAccess c w s).memOr s.dmem
    diagLog := s.diagLog ++ (controlDiags (opcodeOf w) s ++ (seqAlu c w s).diags s)
    draws := s.draws + 1 }

/-- The reference step for the word `w`, after its fetch. -/
def seqWord (c : Config) (w : Word) (s : State) : Result :=
  ifRunning s (.next (if seqFaults c w s = [] then seqCommit c w s else s.raise (seqFaults c w s)))

/-- `SeqStep` (R120). -/
def seqStep (c : Config) (s : State) : Result :=
  match memRead c.imemEndian s.imem s.pc with
  | some w => seqWord c w s
  | none => ifRunning s (.next (s.raise [{ kind := .misalignedAccess, stage := .ifetch, info := s.pc }]))

/-- `n` reference steps, stopping where one stops. -/
def seqRun (c : Config) : Nat → State → Result
  | 0, s => .next s
  | n + 1, s =>
    match seqStep c s with
    | .next t => seqRun c n t
    | .fault r => .fault r
    | .refused r => .refused r

end Sys2Proof.Machine
end

