-- ==== Sys2Proof/Machine/Loader.lean ====
section
/-!
DEFINITION. The construction of the core from its initialisation files (70_reset_and_hazards.md R220, R225 to R227): the
files as text, the pairs their lines give, and the launch state or the refusal of the construction.
-/

namespace Sys2Proof.Machine

/-- Why a construction is refused, so that no run exists. -/
inductive LoadError where
  /-- A pair of a memory file whose address is no multiple of 4 (R226). -/
  | misalignedAddress (a : Word)
  /-- A pair of the register file whose index is above 31 (R227). -/
  | registerIndex (i : Nat)
  deriving DecidableEq, Repr

/-! ## Lines and tokens -/

/-- The lines of a file; a line ends at a line feed (code 10) or at the end of the file. -/
def splitLines : List Char → List (List Char)
  | [] => [[]]
  | ch :: rest =>
    if ch.toNat = 10 then [] :: splitLines rest
    else match splitLines rest with
      | [] => [[ch]]
      | l :: ls => (ch :: l) :: ls

/-- White space inside a line: space, tab, vertical tab, form feed, carriage return (assumption 11). -/
def isBlank (ch : Char) : Bool := [32, 9, 11, 12, 13].contains ch.toNat

/-- The tokens of a line, with `open?` the letters of a token begun, last first. -/
def tokensFrom (begun : List Char) : List Char → List (List Char)
  | [] => if begun.isEmpty then [] else [begun.reverse]
  | ch :: rest =>
    if isBlank ch then
      (if begun.isEmpty then tokensFrom [] rest else begun.reverse :: tokensFrom [] rest)
    else tokensFrom (ch :: begun) rest

/-- The whitespace-separated tokens of a line. -/
def tokens (line : List Char) : List (List Char) := tokensFrom [] line

/-- A decimal digit. -/
def decDigit (ch : Char) : Option Nat := if 48 ≤ ch.toNat ∧ ch.toNat ≤ 57 then some (ch.toNat - 48) else none

/-- A hex digit, either case (D20). -/
def hexDigit (ch : Char) : Option Nat :=
  if 48 ≤ ch.toNat ∧ ch.toNat ≤ 57 then some (ch.toNat - 48)
  else if 65 ≤ ch.toNat ∧ ch.toNat ≤ 70 then some (ch.toNat - 55)
  else if 97 ≤ ch.toNat ∧ ch.toNat ≤ 102 then some (ch.toNat - 87)
  else none

/-- The number a list of digits writes, most significant first, after `acc`. -/
def digitsFrom (base : Nat) (digit : Char → Option Nat) (acc : Nat) : List Char → Option Nat
  | [] => some acc
  | ch :: rest =>
    match digit ch with
    | some d => digitsFrom base digit (base * acc + d) rest
    | none => none

/-- A hex token without its optional `0x` or `0X`. -/
def hexBody : List Char → List Char
  | '0' :: 'x' :: rest => rest
  | '0' :: 'X' :: rest => rest
  | t => t

/-- A hex token: 1 to 8 hex digits with an optional `0x` or `0X` (R225). -/
def hexToken (t : List Char) : Option Word :=
  if 1 ≤ (hexBody t).length ∧ (hexBody t).length ≤ 8 then (digitsFrom 16 hexDigit 0 (hexBody t)).map (BitVec.ofNat 32)
  else none

/-- A register-index token: 1 or 2 decimal digits (R227). -/
def indexToken (t : List Char) : Option Nat :=
  if 1 ≤ t.length ∧ t.length ≤ 2 then digitsFrom 10 decDigit 0 t else none

/-- The pairs of a file's lines: the first line that is not exactly two tokens of the right form ends the scan (R225,
R227). -/
def scanPairs {α : Type} (first : List Char → Option α) : List (List Char) → List (α × Word)
  | [] => []
  | l :: ls =>
    match tokens l with
    | [a, v] =>
      match first a, hexToken v with
      | some a, some v => (a, v) :: scanPairs first ls
      | _, _ => []
    | _ => []

/-! ## Loading -/

/-- Store the pairs of a memory file in order (R225, R226). -/
def loadMemory (e : Endian) (m : Memory) : List (Word × Word) → Except LoadError Memory
  | [] => .ok m
  | (a, v) :: rest =>
    match memWrite e m a v with
    | some m' => loadMemory e m' rest
    | none => .error (.misalignedAddress a)

/-- Write the pairs of a register file in order (R227). -/
def loadRegisters (x : RegFile) : List (Nat × Word) → Except LoadError RegFile
  | [] => .ok x
  | (i, v) :: rest =>
    if i < 32 then loadRegisters (x.write (BitVec.ofNat 5 i) v) rest else .error (.registerIndex i)

/-- What the host gives at construction (60_exceptions.md R205): the launch inputs `P_INIT_PC`, `P_REG_INIT`,
`P_IMEM_INIT`, `P_DMEM_INIT`, `P_NCYCLES` (00_scope.md R11, R13) and the text of the three files. The flags are the
`Config`. Construction does not read `P_NCYCLES`: it is the length of the run (Machine/Run.lean). -/
structure LaunchInputs where
  initPc : Word
  regInit : RegFile
  imemInit : Memory
  dmemInit : Memory
  nCycles : Nat
  regFile : List Char
  imemFile : List Char
  dmemFile : List Char
  deriving DecidableEq, Repr

/-- Construction in the order of R220: the memories, the register file, then the rest. -/
def construct (c : Config) (h : LaunchInputs) : Except LoadError State :=
  match loadMemory c.imemEndian h.imemInit (scanPairs hexToken (splitLines h.imemFile)) with
  | .error err => .error err
  | .ok imem =>
    match loadMemory c.dmemEndian h.dmemInit (scanPairs hexToken (splitLines h.dmemFile)) with
    | .error err => .error err
    | .ok dmem =>
      match loadRegisters (h.regInit.set 0 0#32) (scanPairs indexToken (splitLines h.regFile)) with
      | .error err => .error err
      | .ok x => .ok (State.launch h.initPc x imem dmem)

end Sys2Proof.Machine
end

