-- ==== Sys2Proof/Machine/Run.lean ====
section
/-!
DEFINITION. A run (70_reset_and_hazards.md R230): construction, then `P_NCYCLES` clock steps, "stopping early only on a
fault"; the state the host may observe after every step (60_exceptions.md R203), and the state the run ends in.
-/

namespace Sys2Proof.Machine

/-- The state after the last step of a run of at most `n` steps from `s` (R230). A faulting step is a step: the state it
leaves holds its record, and no step follows it (60_exceptions.md R190). -/
def runFor (c : Config) : Nat → State → State
  | 0, s => s
  | n + 1, s =>
    match clock c s with
    | .next t => runFor c n t
    | .fault _ => s
    | .refused _ => s

/-- What the host observes in a run of at most `n` steps from `s`: the whole state after every step (R203), first first. -/
def observedFor (c : Config) : Nat → State → List State
  | 0, _ => []
  | n + 1, s =>
    match clock c s with
    | .next t => t :: observedFor c n t
    | .fault _ => []
    | .refused _ => []

/-- The result of a run: "the state after its last step" (R230), or the refusal of the construction, where no run exists
(R226, R227). -/
def hostRun (c : Config) (h : LaunchInputs) : Except LoadError State :=
  match construct c h with
  | .error err => .error err
  | .ok s => .ok (runFor c h.nCycles s)

/-- The states the host observes in a run. -/
def hostObserve (c : Config) (h : LaunchInputs) : Except LoadError (List State) :=
  match construct c h with
  | .error err => .error err
  | .ok s => .ok (observedFor c h.nCycles s)

end Sys2Proof.Machine
end

