-- ==== Sys2Proof/Machine/SourceOrder.lean ====
section
/-!
DEFINITION. The clock step in the source's own evaluation order (41_pipeline.md R125, R157): the stage functions WB, MEM,
EX, ID, IF run one after another on one mutable state, and what bridges non-adjacent stages goes through a "mailbox" that
lives for one cycle only (10_state.md R36). R157 says that it gives the values of `clock`.
-/

namespace Sys2Proof.Machine

/-- A forwarding source as a stage publishes it: {regWrite, rd, value}. -/
structure ForwardSource where
  regWrite : Bool
  rd : RegIdx
  value : Word
  deriving DecidableEq, Repr

/-- The signals of one cycle. -/
structure Mailbox where
  /-- Published by WB for EX (R127). -/
  fromWb : ForwardSource
  /-- Published by MEM for EX (R130). -/
  fromMem : ForwardSource
  /-- Computed by MEM for IF (R128). -/
  pcSrc : Bool
  target : Word
  /-- Published by EX for ID (R133). -/
  loadInEx : Bool
  loadRt : RegIdx
  /-- Given by the hazard unit in ID to IF (R146). -/
  stall : Bool
  faults : List FaultEntry
  deriving DecidableEq, Repr

/-- A mailbox before any stage has run. -/
def Mailbox.empty : Mailbox :=
  { fromWb := ⟨false, 0#5, 0#32⟩, fromMem := ⟨false, 0#5, 0#32⟩, pcSrc := false, target := 0#32, loadInEx := false,
    loadRt := 0#5, stall := false, faults := [] }

/-- The mutable state of a cycle in progress. -/
structure InCycle where
  state : State
  box : Mailbox
  deriving DecidableEq, Repr

/-- WB on the mutable state. -/
def runWb (p : InCycle) : InCycle :=
  let l := p.state.memwb
  let value := mux2 l.aluResult l.readData l.memToReg
  { state := { p.state with x := (p.state.x.access 0#5 0#5 l.writeReg value l.regWrite).file }
    box := { p.box with fromWb := ⟨l.regWrite, l.writeReg, value⟩ } }

/-- MEM on the mutable state. -/
def runMem (c : Config) (p : InCycle) : InCycle :=
  let l := p.state.exmem
  let r := p.state.dmem.access c.dmemEndian l.aluResult l.writeData l.memRead l.memWrite
  { state := { p.state with
      dmem := r.memOr p.state.dmem
      memwb := { regWrite := l.regWrite, memToReg := l.memToReg,
                 readData := r.dataOr (Config.readDraw p.state.draws), aluResult := l.aluResult,
                 writeReg := l.writeReg } }
    box := { p.box with
      fromMem := ⟨l.regWrite, l.writeReg, l.aluResult⟩
      pcSrc := and1 l.branch l.zero
      target := l.target
      faults := p.box.faults ++ r.faults .mem l.aluResult } }

/-- The selector the forwarding unit gives from the two published sources. -/
def Mailbox.select (c : Config) (b : Mailbox) (r : RegIdx) : BitVec 2 :=
  if b.fromMem.regWrite = true ∧ b.fromMem.rd ≠ 0#5 ∧ b.fromMem.rd = r ∧ c.fwdEn = true then 2#2
  else if b.fromWb.regWrite = true ∧ b.fromWb.rd ≠ 0#5 ∧ b.fromWb.rd = r ∧ c.fwdEn = true then 1#2
  else 0#2

/-- A forwarding multiplexer over the published sources, with its fault. -/
def Mailbox.operand (c : Config) (b : Mailbox) (latched : Word) (r : RegIdx) : Word × List FaultEntry :=
  match mux3 latched b.fromWb.value b.fromMem.value (b.select c r) with
  | some v => (v, [])
  | none => (latched, [{ kind := .mux3Select, stage := .ex, info := (b.select c r).setWidth 32 }])

/-- EX on the mutable state. -/
def runEx (c : Config) (p : InCycle) : InCycle :=
  let l := p.state.idex
  let a := p.box.operand c l.rd1 l.rs
  let bF := p.box.operand c l.rd2 l.rt
  let o := aluPath c a.1 (mux2 bF.1 l.imm l.ctl.aluSrc) l.ctl.aluOp l.funct (Config.aluDraw p.state.draws)
  { state := { p.state with
      exmem := { branch := l.ctl.branch, memRead := l.ctl.memRead, memWrite := l.ctl.memWrite,
                 regWrite := l.ctl.regWrite, memToReg := l.ctl.memToReg, target := branchTarget l.pc4 l.imm,
                 zero := o.zero, aluResult := o.result, writeData := bF.1,
                 writeReg := mux2 l.rt l.rd l.ctl.regDst }
      diagLog := p.state.diagLog ++ o.diags p.state }
    box := { p.box with
      loadInEx := l.ctl.memRead
      loadRt := l.rt
      faults := p.box.faults ++ (a.2 ++ bF.2) } }

/-- ID on the mutable state: it reads the register file WB has written. -/
def runId (c : Config) (p : InCycle) : InCycle :=
  let w := p.state.ifid.instr
  let held := p.box.loadInEx && (p.box.loadRt == rsOf w || p.box.loadRt == rtOf w) && c.hduEn
  let r := p.state.x.access (rsOf w) (rtOf w) 0#5 0#32 false
  { state := { p.state with
      idex := { ctl := mux2 (controlBundle (opcodeOf w)) ctl0 held, pc4 := p.state.ifid.pc4, rd1 := r.outData1,
                rd2 := r.outData2, imm := sext32 (immOf w), rs := rsOf w, rt := rtOf w, rd := rdOf w,
                funct := functOf w }
      diagLog := p.state.diagLog ++ controlDiags (opcodeOf w) p.state }
    box := { p.box with stall := held } }

/-- IF on the mutable state. -/
def runIf (c : Config) (p : InCycle) : InCycle :=
  let pc4 := pcPlus4 p.state.pc
  let fetched := memRead c.imemEndian p.state.imem p.state.pc
  { state := { p.state with
      ifid := if p.box.stall = true then p.state.ifid else { instr := fetched.getD 0#32, pc4 := pc4 }
      pc := mux2 p.state.pc (mux2 pc4 p.box.target p.box.pcSrc) (!p.box.stall) }
    box := { p.box with
      faults := p.box.faults ++
        (if p.box.stall = true then []
         else match fetched with
          | some _ => []
          | none => [{ kind := .misalignedAccess, stage := .ifetch, info := p.state.pc }]) } }

/-- The squash of a taken `beq` (R150, R151), on the latches as the five stages left them. -/
def runSquash (c : Config) (p : InCycle) : InCycle :=
  if p.box.pcSrc = true ∧ 2 ≤ c.squash.val then
    { p with state := { p.state with
        pc := p.box.target
        ifid := IfId.cleared
        idex := { p.state.idex with ctl := ctl0 }
        exmem := if c.squash.val = 3 then p.state.exmem.squashed else p.state.exmem } }
  else if p.box.pcSrc = true ∧ c.squash.val = 1 ∧ p.box.stall = false then
    { p with state := { p.state with ifid := IfId.cleared } }
  else p

/-- The cycle in the source's order. -/
def cycleInOrder (c : Config) (s : State) : InCycle :=
  runSquash c (runIf c (runId c (runEx c (runMem c (runWb { state := s, box := Mailbox.empty })))))

/-- `advanceCycle` in the source's order. -/
def clockInOrder (c : Config) (s : State) : Result :=
  let p := cycleInOrder c s
  ifRunning s (.next
    (if p.box.faults = [] then { p.state with cycle := s.cycle + 1, draws := s.draws + 1 }
     else s.raise p.box.faults))

end Sys2Proof.Machine
end

