-- ==== Sys2Proof/Safety.lean ====
section
/-!
DEFINITION. The terms the claims are stated in: what an instruction leaves unchanged, an empty pipeline, which control
bundles the decoder can make, and the invariant of the machine.
-/

namespace Sys2Proof.Machine

/-! ## Frames -/

/-- Every register of `t` is as in `s`, but that `dst` holds `v` where `dst` is not register 0 (10_state.md R21). -/
def WritesRegister (s t : State) (dst : RegIdx) (v : Word) : Prop :=
  ∀ r, t.reg r = if r = dst ∧ dst ≠ 0#5 then v else s.reg r

/-- Every register of `t` is as in `s`. -/
def KeepsRegisters (s t : State) : Prop := ∀ r, t.reg r = s.reg r

/-- Every byte of `DMEM` reads as before. -/
def KeepsData (s t : State) : Prop := ∀ a, t.dmem.read a = s.dmem.read a

/-- What no instruction's architectural effect changes: `IMEM` and, where it completes, the fault record; and, by the
model's choice (assumption 8), the four latches and the cycle counter, of which R120 does not speak. -/
structure KeepsRest (s t : State) : Prop where
  imem : ∀ a, t.imem.read a = s.imem.read a
  ifid : t.ifid = s.ifid
  idex : t.idex = s.idex
  exmem : t.exmem = s.exmem
  memwb : t.memwb = s.memwb
  cycle : t.cycle = s.cycle
  fault : t.fault = s.fault

/-- The effect of `nor` in a configuration (42_rtype.md R165): the complement of the union, or, where `P_NOR_EN` is false,
some value and the `UnsupportedFunct` diagnostic of 30_encoding.md R83, whose step number is the model's choice
(assumption 8). -/
def NorEffect (c : Config) (rd rs rt : RegIdx) (s t : State) : Prop :=
  t.pc = s.pc + 4#32 ∧ KeepsData s t ∧ KeepsRest s t ∧
    if c.norEn = true then WritesRegister s t rd (~~~(s.reg rs ||| s.reg rt)) ∧ t.diagLog = s.diagLog
    else (∃ v, WritesRegister s t rd v) ∧
      t.diagLog = s.diagLog ++ [{ cycle := s.cycle + 1, stage := .ex, kind := .unsupportedFunct, detail := 0x27 }]

/-! ## The pipeline at launch -/

/-- Every latch is as reset leaves it (10_state.md R40), and no fault is recorded. -/
structure State.EmptyPipeline (s : State) : Prop where
  fault : s.fault = none
  ifid : s.ifid = IfId.cleared
  idex : s.idex = IdEx.cleared
  exmem : s.exmem = ExMem.cleared
  memwb : s.memwb = MemWb.cleared

/-- The word a word access reads at `a`. -/
def codeWord (c : Config) (s : State) (a : Word) : Word := s.imem.readWord c.imemEndian a

/-- A word whose result no rule leaves open, or whose drawn result is discarded: not an R-type word with an unsupported
funct and a destination other than register 0 (30_encoding.md R83, R86). -/
def Determined (c : Config) (w : Word) : Prop :=
  opcodeOf w = opRType → rdOf w ≠ 0#5 → ∃ code, aluControlRType c (functOf w) = .code code

/-- The nop of the spec's convention, `add $0, $0, $0` (30_encoding.md R88). -/
def nopWord : Word := 0x00000020#32

/-! ## The invariant -/

/-- A bundle the control decoder makes, or `Ctl0` (30_encoding.md R80). -/
abbrev Ctl.Legal (k : Ctl) : Prop :=
  k = ctlRType ∨ k = ctlLw ∨ k = ctlSw ∨ k = ctlBeq ∨ k = ctlAddi ∨ k = ctl0

/-- EX/MEM carries the control bits of a legal bundle. -/
def ExMem.Legal (l : ExMem) : Prop :=
  ∃ k : Ctl, k.Legal ∧ l.branch = k.branch ∧ l.memRead = k.memRead ∧ l.memWrite = k.memWrite ∧
    l.regWrite = k.regWrite ∧ l.memToReg = k.memToReg

/-- MEM/WB carries the control bits of a legal bundle. -/
def MemWb.Legal (l : MemWb) : Prop := ∃ k : Ctl, k.Legal ∧ l.regWrite = k.regWrite ∧ l.memToReg = k.memToReg

/-- A record the core can log: of the step it says, no later than the last, and of a reachable kind (R112, R195). -/
def Diag.Reachable (d : Diag) (cycle : Nat) : Prop :=
  d.cycle ≤ cycle ∧
    ((d.stage = .ex ∧ d.kind = .unsupportedFunct) ∨ (d.stage = .id ∧ d.kind = .unknownOpcode))

/-- A fault record the core can make: one misaligned `lw` or `sw`, in the step after the last (60_exceptions.md R192). -/
def FaultRecord.Reachable (r : FaultRecord) (cycle : Nat) : Prop :=
  r.cycle = cycle + 1 ∧
    ∃ a : Word, aligned a = false ∧ r.faults = [{ kind := .misalignedAccess, stage := .mem, info := a }]

/-- The invariant of the machine from an aligned initial PC: the memories are canonical, register 0 is stored as zero,
every PC value held anywhere is a multiple of 4 (10_state.md R25), every control bundle in flight is one the decoder
makes, and the log and the fault record hold only what the spec says can arise. -/
structure State.Inv (s : State) : Prop where
  imem_wf : s.imem.wf = true
  dmem_wf : s.dmem.wf = true
  reg0 : s.x[0] = 0#32
  pc_aligned : aligned s.pc = true
  ifid_aligned : aligned s.ifid.pc4 = true
  idex_aligned : aligned s.idex.pc4 = true
  target_aligned : aligned s.exmem.target = true
  idex_legal : s.idex.ctl.Legal
  exmem_legal : s.exmem.Legal
  memwb_legal : s.memwb.Legal
  log_reachable : ∀ d ∈ s.diagLog, d.Reachable s.cycle
  fault_reachable : ∀ r, s.fault = some r → r.Reachable s.cycle

/-! ## Initialisation files -/

/-- A line of a file reads as the pair `p`: exactly two tokens, the first as the file's first column, the second a hex
value (70_reset_and_hazards.md R225, R227). -/
def LineReads {α : Type} (first : List Char → Option α) (line : List Char) (p : α × Word) : Prop :=
  ∃ a v, tokens line = [a, v] ∧ first a = some p.1 ∧ hexToken v = some p.2

/-! ## Byte order -/

/-- Two memories, each with its own byte order, hold the same word at every aligned address. -/
def SameWords (e1 : Endian) (m1 : Memory) (e2 : Endian) (m2 : Memory) : Prop :=
  ∀ a, aligned a = true → m1.readWord e1 a = m2.readWord e2 a

end Sys2Proof.Machine
end

