-- ==== Sys2Proof/Certificates/Slice0/Obligations.lean ====
section
/-!
DEFINITION. The statements for the provers. Each docstring names the rule of spec/ it formalises. `clock c` is the clock
step in a configuration `c`, and `step` is `clock Config.machine`, so what is stated for every `c` holds of `step`.
Where a rule is the spec's own choice or inference and not the source's, the docstring names the decision (D<n>, of
92_eei_decisions.md) or says that the rule is derived; such a statement has basis 'derived'.
-/

open Sys2Proof Sys2Proof.Machine

/-! ## Encoding -/

/-- The example words of R89: each is its instruction's word, and decodes to it. The numbers are the spec's choice (D1). -/
def Obligations.SourceExampleEncodings : Prop :=
  (encode (.addi 1 0 5) = 0x20010005#32 ∧ decode 0x20010005#32 = .instr (.addi 1 0 5)) ∧
  (encode (.addi 2 0 7) = 0x20020007#32 ∧ decode 0x20020007#32 = .instr (.addi 2 0 7)) ∧
  (encode (.add 3 1 2) = 0x00221820#32 ∧ decode 0x00221820#32 = .instr (.add 3 1 2)) ∧
  (encode (.lw 1 2 0) = 0x8C410000#32 ∧ decode 0x8C410000#32 = .instr (.lw 1 2 0)) ∧
  (encode (.add 3 1 4) = 0x00241820#32 ∧ decode 0x00241820#32 = .instr (.add 3 1 4)) ∧
  (encode (.beq 1 1 2) = 0x10210002#32 ∧ decode 0x10210002#32 = .instr (.beq 1 1 2))

/-- R70 to R77 (the numbers are the spec's choice, D1): the decoder reads back every instruction the encoder writes, with
every operand. -/
def Obligations.DecodeEncodeRoundTrip : Prop := ∀ i : Instr, decode (encode i) = .instr i

/-- R75, R85: every word is an instruction of the table, an R-type word with an unsupported funct, or a word with a
reserved opcode, and is read as such; a word read as an instruction is that instruction's word, but for the `shamt`
field of an R-type word, which nothing reads. Both rules are derived by the spec, and the numbers of R76 and R77 are its
choice (D1). That the funct of `nor` is read as `nor` in every configuration is the model's choice (assumption 9, from R78):
without `P_NOR_EN` the ALU-control unit answers it as unsupported (R84). -/
def Obligations.EveryWordIsReadForWhatItIs : Prop :=
  (∀ (w : Word) (i : Instr), decode w = .instr i →
    encode i = if opcodeOf w = opRType then w &&& ~~~0x000007C0#32 else w) ∧
  ∀ w : Word,
    (∃ i, decode w = .instr i) ∨
    (opcodeOf w = 0x00#6 ∧ functOf w ∉ [0x20#6, 0x22#6, 0x24#6, 0x25#6, 0x2A#6, 0x27#6] ∧
      decode w = .unsupportedFunct (functOf w)) ∨
    (opcodeOf w ∉ [0x00#6, 0x23#6, 0x2B#6, 0x04#6, 0x08#6] ∧ decode w = .reservedOpcode (opcodeOf w))

/-! ## Units -/

/-- R80, R106: the control bundle of every opcode. The cell values are the spec's choice (D2). -/
def Obligations.ControlBundleOfEveryOpcode : Prop :=
  ∀ op : BitVec 6, controlBundle op =
    if op = 0x00#6 then
      { regDst := true, aluSrc := false, memToReg := false, regWrite := true, memRead := false, memWrite := false,
        branch := false, aluOp := 0b10#2 }
    else if op = 0x23#6 then
      { regDst := false, aluSrc := true, memToReg := true, regWrite := true, memRead := true, memWrite := false,
        branch := false, aluOp := 0b00#2 }
    else if op = 0x2B#6 then
      { regDst := false, aluSrc := true, memToReg := false, regWrite := false, memRead := false, memWrite := true,
        branch := false, aluOp := 0b00#2 }
    else if op = 0x04#6 then
      { regDst := false, aluSrc := false, memToReg := false, regWrite := false, memRead := false, memWrite := false,
        branch := true, aluOp := 0b01#2 }
    else if op = 0x08#6 then
      { regDst := false, aluSrc := true, memToReg := false, regWrite := true, memRead := false, memWrite := false,
        branch := false, aluOp := 0b00#2 }
    else
      { regDst := false, aluSrc := false, memToReg := false, regWrite := false, memRead := false, memWrite := false,
        branch := false, aluOp := 0b00#2 }

/-- R109 to R112, R81: the ALU-control unit, and which ALUOp the bundles use. The decoder never makes
ALUOp 11. The funct numbers and the bundles are the spec's choice (D1, D2). -/
def Obligations.AluControlMap : Prop :=
  ∀ (c : Config) (funct : BitVec 6),
    aluControl c 0b00#2 funct = .code 0b0010#4 ∧
    aluControl c 0b01#2 funct = .code 0b0110#4 ∧
    aluControl c 0b10#2 funct =
      (if funct = 0x20#6 then .code 0b0010#4
       else if funct = 0x22#6 then .code 0b0110#4
       else if funct = 0x24#6 then .code 0b0000#4
       else if funct = 0x25#6 then .code 0b0001#4
       else if funct = 0x2A#6 then .code 0b0111#4
       else if funct = 0x27#6 ∧ c.norEn = true then .code 0b1100#4
       else .unsupported .unsupportedFunct funct.toNat) ∧
    aluControl c 0b11#2 funct = .unsupported .unsupportedALUOp 0b11 ∧
    (controlBundle 0x23#6).aluOp = 0b00#2 ∧ (controlBundle 0x2B#6).aluOp = 0b00#2 ∧
    (controlBundle 0x08#6).aluOp = 0b00#2 ∧ ctl0.aluOp = 0b00#2 ∧ (controlBundle 0x04#6).aluOp = 0b01#2 ∧
    ∀ op : BitVec 6, (controlBundle op).aluOp ≠ 0b11#2

/-- R98, R99, R100, R104: AND, OR, ADD and NOR, none with a diagnostic; and R111: the funct of `nor` reaches code 1100
exactly when `P_NOR_EN`. The funct number is general knowledge (D1, assumption 9), the flag is left open (D8). -/
def Obligations.AluBitwiseAndAdd : Prop :=
  (∀ a b d : Word,
    (alu 0b0000#4 a b d).result = a &&& b ∧ (alu 0b0001#4 a b d).result = a ||| b ∧
    (alu 0b0010#4 a b d).result.toNat = (a.toNat + b.toNat) % 2 ^ 32 ∧ (alu 0b1100#4 a b d).result = ~~~(a ||| b) ∧
    (alu 0b0000#4 a b d).diag = none ∧ (alu 0b0001#4 a b d).diag = none ∧ (alu 0b0010#4 a b d).diag = none ∧
    (alu 0b1100#4 a b d).diag = none) ∧
  ∀ c : Config, aluControl c 0b10#2 0x27#6 = .code 0b1100#4 ↔ c.norEn = true

/-- R101: the zero flag is computed over the result, whatever the operation, the drawn results among them. -/
def Obligations.ZeroFlagOverTheResult : Prop :=
  (∀ (code : BitVec 4) (a b d : Word), (alu code a b d).zero = true ↔ (alu code a b d).result = 0#32) ∧
  ∀ (c : Config) (a b : Word) (op : BitVec 2) (f : BitVec 6) (d : Word),
    (aluPath c a b op f d).zero = true ↔ (aluPath c a b op f d).result = 0#32

/-- R102: SUBTRACT is `a + ~b + 1`, which is the difference modulo 2^32, and its zero says that the operands are equal. -/
def Obligations.SubtractIsDifferenceAndTestsEquality : Prop :=
  ∀ a b d : Word,
    (alu 0b0110#4 a b d).result = a + ~~~b + 1#32 ∧ (alu 0b0110#4 a b d).result = a - b ∧
    (alu 0b0110#4 a b d).diag = none ∧ ((alu 0b0110#4 a b d).zero = true ↔ a = b)

/-- R103: SET-LESS-THAN is the signed comparison, and the source's way of computing it, by the sign bits, gives it;
that the two agree is derived by the spec. -/
def Obligations.SetLessThanIsSigned : Prop :=
  ∀ a b d : Word,
    (alu 0b0111#4 a b d).result = (if a.toInt < b.toInt then 1#32 else 0#32) ∧
    (alu 0b0111#4 a b d).result =
      (if (if a.msb ≠ b.msb then a.msb else (a - b).msb) = true then 1#32 else 0#32)

/-- R105, R113: an unsupported code or funct gives the drawn value, with its diagnostic: the spec's choice (D7). -/
def Obligations.UnsupportedAluInputDraws : Prop :=
  (∀ (code : BitVec 4) (a b d : Word),
    code ∉ [0b0000#4, 0b0001#4, 0b0010#4, 0b0110#4, 0b0111#4, 0b1100#4] →
    alu code a b d = { result := d, zero := d == 0#32, diag := some (.unsupportedALUCode, code.toNat) }) ∧
  ∀ (c : Config) (a b d : Word) (f : BitVec 6),
    f ∉ [0x20#6, 0x22#6, 0x24#6, 0x25#6, 0x2A#6] → (f = 0x27#6 → c.norEn = false) →
    aluPath c a b 0b10#2 f d = { result := d, zero := d == 0#32, diag := some (.unsupportedFunct, f.toNat) }

/-- R94, R95, R96: the immediate. What the shift drops is the spec's resolution of conflict C3, and that the product is
exact is derived by the spec. Sign extension replicates bit 15; the shift drops the two top bits and is `x * 4` modulo
2^32, and on a sign-extended immediate it keeps the sign and is the exact product. -/
def Obligations.SignExtensionAndShift : Prop :=
  (∀ v : BitVec 16,
    sext32 v = (if v.getLsbD 15 = true then 0xFFFF#16 else 0x0000#16) ++ v ∧
    sext32 ((sext32 v).extractLsb' 0 16) = sext32 v ∧
    (v.getLsbD 15 = false → sext32 v = v.setWidth 32) ∧
    (v.getLsbD 15 = true → (sext32 v).extractLsb' 16 16 = 0xFFFF#16)) ∧
  (∀ x : Word, shiftLeft2 x = x.extractLsb' 0 30 ++ 0b00#2 ∧ shiftLeft2 x = x * 4#32) ∧
  ∀ v : BitVec 16, (shiftLeft2 (sext32 v)).toInt = v.toInt * 4 ∧ (shiftLeft2 (sext32 v)).msb = v.msb

/-- R93: Mux3, and that the core never gives it a selector of 3, which the spec derives from R141. -/
def Obligations.ThreeWayMultiplexer : Prop :=
  (∀ a b d : Word, mux3 a b d 0#2 = some a ∧ mux3 a b d 1#2 = some b ∧ mux3 a b d 2#2 = some d ∧ mux3 a b d 3#2 = none) ∧
  (∀ s : State, forwardFaults s 3#2 = [{ kind := .mux3Select, stage := .ex, info := 3#32 }]) ∧
  (∀ (c : Config) (s : State) (r : RegIdx), forwardSelect c s r ≠ 3#2) ∧
  ∀ (c : Config) (s : State), ∀ e ∈ stepFaults c s, e.kind ≠ .mux3Select

/-! ## Register file and memory -/

/-- R21: register 0 reads as zero after any sequence of writes to it, and a write to it changes nothing. -/
def Obligations.RegisterZeroIsWired : Prop :=
  ∀ x : RegFile, x.read 0#5 = 0#32 ∧ (∀ v, x.write 0#5 v = x) ∧
    ∀ vs : List Word, (vs.foldl (fun y v => y.write 0#5 v) x).read 0#5 = 0#32

/-- R22, R127, R134: the register file's access contract, and the two calls the core makes of it in a cycle. That ID's
call comes after WB's write is derived by the spec (R134, from R125). -/
def Obligations.RegisterFileAccess : Prop :=
  (∀ (x : RegFile) (r1 r2 w : RegIdx) (v : Word) (we : Bool),
    (x.access r1 r2 w v we).outData1 = x.read r1 ∧ (x.access r1 r2 w v we).outData2 = x.read r2 ∧
    ∀ r, (x.access r1 r2 w v we).file.read r = if we = true ∧ w ≠ 0#5 ∧ r = w then v else x.read r) ∧
  ∀ s : State,
    (∃ r1 r2, wbFile s = (s.x.access r1 r2 s.memwb.writeReg (wbValue s) s.memwb.regWrite).file) ∧
    (∃ w v, idAccess s = (wbFile s).access (rsOf s.ifid.instr) (rtOf s.ifid.instr) w v false) ∧
    (idAccess s).file = wbFile s

/-- R52, R53, R55: the memory component's access contract, with the faults it raises; a word read is composed of the four
bytes from its address up, in the memory's byte order, where the address is a multiple of 4, and changes nothing. That a
misaligned access faults is the spec's choice (D5). -/
def Obligations.MemoryAccessContract : Prop :=
  (∀ (e : Endian) (m : Memory) (a w : Word),
    m.access e a w false false = .done m none ∧
    m.access e a w true true = .failed .memReadWriteConflict ∧
    m.access e a w true false =
      (match memRead e m a with | some v => .done m (some v) | none => .failed .misalignedAccess) ∧
    m.access e a w false true =
      (match memWrite e m a w with | some m' => .done m' none | none => .failed .misalignedAccess)) ∧
  (∀ (e : Endian) (m : Memory) (a w : Word) (rd wr : Bool) (stage : Stage),
    (m.access e a w rd wr).faults stage a =
      if rd = true ∧ wr = true then [{ kind := .memReadWriteConflict, stage := stage, info := a }]
      else if (rd = true ∨ wr = true) ∧ a.toNat % 4 ≠ 0 then
        [{ kind := .misalignedAccess, stage := stage, info := a }]
      else []) ∧
  ∀ (m : Memory) (a : Word),
    (a.toNat % 4 ≠ 0 → ∀ e, memRead e m a = none) ∧
    (a.toNat % 4 = 0 →
      memRead .little m a =
        some (m.read (a.toNat + 3) ++ m.read (a.toNat + 2) ++ m.read (a.toNat + 1) ++ m.read a.toNat) ∧
      memRead .big m a =
        some (m.read a.toNat ++ m.read (a.toNat + 1) ++ m.read (a.toNat + 2) ++ m.read (a.toNat + 3)))

/-- R53, R56: a word write sets the four bytes from its address up, in the memory's byte order, and no other byte; the
four addresses do not wrap (derived by the spec; the fault of a misaligned write is its choice, D5). -/
def Obligations.WordWriteSetsFourBytes : Prop :=
  ∀ (m : Memory) (a w : Word), m.wf = true →
    (a.toNat % 4 ≠ 0 → ∀ e, memWrite e m a w = none ∧ m.access e a w false true = .failed .misalignedAccess ∧
      (m.access e a w false true).faults .mem a = [{ kind := .misalignedAccess, stage := .mem, info := a }]) ∧
    (a.toNat % 4 = 0 → a.toNat + 3 ≤ 0xFFFFFFFF ∧
      ∀ e, ∃ m', memWrite e m a w = some m' ∧
        (∀ i < 4, m'.read (a.toNat + i) =
          match e with
          | .little => w.extractLsb' (8 * i) 8
          | .big => w.extractLsb' (24 - 8 * i) 8) ∧
        ∀ k, k < a.toNat ∨ a.toNat + 4 ≤ k → m'.read k = m.read k)

/-- R57: a word written to an aligned address is read back, in either byte order (derived by the spec from R55, R56). -/
def Obligations.WordWriteReadRoundTrip : Prop :=
  ∀ (e : Endian) (m : Memory) (a w : Word), m.wf = true → aligned a = true →
    ∃ m', memWrite e m a w = some m' ∧ memRead e m' a = some w

/-! ## The architectural effect of each instruction (R120) -/

/-- R160 to R164: `add`, `sub`, `and`, `or` and `slt` complete on every operand: sum and difference wrap, the comparison is
signed; no other register, no byte of memory and no log record changes. That the latches and the cycle counter stay is
the model's choice (assumption 8). -/
def Obligations.RTypeResults : Prop :=
  ∀ (rd rs rt : RegIdx) (s : State), s.fault = none →
    ∀ p ∈ [(Instr.add rd rs rt, s.reg rs + s.reg rt),
           (Instr.sub rd rs rt, s.reg rs - s.reg rt),
           (Instr.and rd rs rt, s.reg rs &&& s.reg rt),
           (Instr.or rd rs rt, s.reg rs ||| s.reg rt),
           (Instr.slt rd rs rt, if (s.reg rs).toInt < (s.reg rt).toInt then 1#32 else 0#32)],
    ∃ t, exec p.1 s = .next t ∧ WritesRegister s t rd p.2 ∧ t.pc = s.pc + 4#32 ∧
      KeepsData s t ∧ KeepsRest s t ∧ t.diagLog = s.diagLog

/-- R165, R83, R84: `nor` completes in either configuration: with `P_NOR_EN` it writes the complement of the union and
logs nothing; without it, it writes a drawn value and logs `UnsupportedFunct` with detail 0x27 (the spec's choices D7,
D8). The statement holds for every value of the draw (assumption 3). That the latches and the cycle counter stay, and that
the record's step number is `cycle + 1`, is the model's choice (assumption 8). -/
def Obligations.NorResult : Prop :=
  ∀ (rd rs rt : RegIdx) (s : State), s.fault = none →
    (∃ t, exec (.nor rd rs rt) s = .next t ∧ NorEffect Config.machine rd rs rt s t) ∧
    ∀ c : Config, ∃ t, norIn c rd rs rt s = .next t ∧ NorEffect c rd rs rt s t

/-- R180: `addi` completes. That the latches and the cycle counter stay is the model's choice (assumption 8). -/
def Obligations.AddiResult : Prop :=
  ∀ (rt rs : RegIdx) (imm : BitVec 16) (s : State), s.fault = none →
    ∃ t, exec (.addi rt rs imm) s = .next t ∧ WritesRegister s t rt (s.reg rs + imm.signExtend 32) ∧
      t.pc = s.pc + 4#32 ∧ KeepsData s t ∧ KeepsRest s t ∧ t.diagLog = s.diagLog

/-- R170, R171: `lw` completes at an aligned effective address, and loads the word of the four bytes there; the base is
read before the write. That the latches and the cycle counter stay is the model's choice (assumption 8). -/
def Obligations.LwResult : Prop :=
  ∀ (rt rs : RegIdx) (imm : BitVec 16) (s : State), s.fault = none →
    (s.reg rs + imm.signExtend 32).toNat % 4 = 0 →
    ∃ t, exec (.lw rt rs imm) s = .next t ∧
      WritesRegister s t rt (s.dmem.readWord Config.machine.dmemEndian (s.reg rs + imm.signExtend 32)) ∧
      t.pc = s.pc + 4#32 ∧ KeepsData s t ∧ KeepsRest s t ∧ t.diagLog = s.diagLog

/-- R170, R172: `sw` completes at an aligned effective address: the four bytes there are those of the datum, every other
byte and every register is unchanged. That the latches and the cycle counter stay is the model's choice (assumption 8). -/
def Obligations.SwResult : Prop :=
  ∀ (rt rs : RegIdx) (imm : BitVec 16) (s : State), s.fault = none → s.dmem.wf = true →
    (s.reg rs + imm.signExtend 32).toNat % 4 = 0 →
    ∃ t, exec (.sw rt rs imm) s = .next t ∧ KeepsRegisters s t ∧ t.pc = s.pc + 4#32 ∧ KeepsRest s t ∧
      t.diagLog = s.diagLog ∧
      (∀ i < 4, t.dmem.read ((s.reg rs + imm.signExtend 32).toNat + i) =
        byteOfWord Config.machine.dmemEndian (s.reg rt) i) ∧
      ∀ a, a < (s.reg rs + imm.signExtend 32).toNat ∨ (s.reg rs + imm.signExtend 32).toNat + 4 ≤ a →
        t.dmem.read a = s.dmem.read a

/-- R54, R171, R172, R190: `lw` and `sw` at a misaligned effective address record the fault and change nothing else: the
spec's choices D5 and D16, in the model's form (assumption 7). That the latches and the cycle counter stay, and that the
record's step number is `cycle + 1`, is in this step the model's choice (assumption 8). -/
def Obligations.MisalignedLoadAndStoreFault : Prop :=
  ∀ (rt rs : RegIdx) (imm : BitVec 16) (s : State), s.fault = none →
    (s.reg rs + imm.signExtend 32).toNat % 4 ≠ 0 → ∀ i ∈ [Instr.lw rt rs imm, Instr.sw rt rs imm],
    exec i s = .next { s with
      fault := some { cycle := s.cycle + 1, faults := [{ kind := .misalignedAccess, stage := .mem, info := s.reg rs + imm.signExtend 32 }] } }

/-- R175, R176: `beq` completes; it is taken exactly when the two registers are equal. That the latches and the cycle
counter stay is the model's choice (assumption 8). -/
def Obligations.BeqResult : Prop :=
  ∀ (rs rt : RegIdx) (off : BitVec 16) (s : State), s.fault = none →
    ∃ t, exec (.beq rs rt off) s = .next t ∧
      t.pc = (if s.reg rs = s.reg rt then s.pc + 4#32 + off.signExtend 32 * 4#32 else s.pc + 4#32) ∧
      KeepsRegisters s t ∧ KeepsData s t ∧ KeepsRest s t ∧ t.diagLog = s.diagLog

/-- R63, R172: a `lw` after a `sw` to the same address loads the stored word. -/
def Obligations.StoreThenLoadReturnsTheWord : Prop :=
  ∀ (rt rs dst : RegIdx) (imm : BitVec 16) (s : State), s.fault = none → s.dmem.wf = true →
    (s.reg rs + imm.signExtend 32).toNat % 4 = 0 →
    ∃ t u, exec (.sw rt rs imm) s = .next t ∧ exec (.lw dst rs imm) t = .next u ∧
      WritesRegister s u dst (s.reg rt)

/-- R120: the single-cycle datapath, run on the word at the PC, does what the instruction it decodes to means. -/
def Obligations.ReferenceStepRunsTheDecodedInstruction : Prop :=
  ∀ (s : State) (w : Word) (i : Instr), memRead Config.machine.imemEndian s.imem s.pc = some w →
    decode w = .instr i → seqStep Config.machine s = exec i s

/-- R82: in the reference step a reserved opcode goes on to the next word and logs its diagnostic (D15), and changes
nothing else the spec gives that step. That the latches and the cycle counter stay, and that the record's step number is
`cycle + 1`, is the model's choice (assumption 8), and so is the draw the step counts in `draws` (assumption 3). -/
def Obligations.ReservedOpcodeIsNoOp : Prop :=
  ∀ (c : Config) (w : Word) (s : State), s.fault = none →
    opcodeOf w ∉ [0x00#6, 0x23#6, 0x2B#6, 0x04#6, 0x08#6] →
    seqWord c w s = .next { s with
      pc := s.pc + 4#32
      draws := s.draws + 1
      diagLog := s.diagLog ++
        [{ cycle := s.cycle + 1, stage := .id, kind := .unknownOpcode, detail := (opcodeOf w).toNat }] }

/-! ## The clock step -/

/-- R35, R190, R126: while no fault is recorded the core takes a step, whatever the state; once one is, neither the
clock step nor any instruction goes on. That a fault ends the run so is the spec's choice (D16; assumption 7). -/
def Obligations.StepsExactlyWhileNoFault : Prop :=
  (∀ s : State, s.fault = none → ∃ t, step s = .next t) ∧
  ∀ (s : State) (r : FaultRecord), s.fault = some r →
    step s = .fault (.stopped r) ∧ ∀ i, exec i s = .fault (.stopped r)

/-- R136, R137: every step that does not fault, with no stall and no redirect, latches the word at the PC and PC+4, and the
PC goes on; and such a step is made wherever the PC is aligned and MEM makes no access, or one of the two at an aligned
address. That the fetch is at the start-of-step PC is the spec's choice (D10). -/
def Obligations.StepFetchesTheWordAtThePc : Prop :=
  (∀ (c : Config) (s t : State), clock c s = .next t → t.fault = none → stall c s = false → pcSrc s = false →
    t.ifid = { instr := s.imem.readWord c.imemEndian s.pc, pc4 := s.pc + 4#32 } ∧ t.pc = s.pc + 4#32) ∧
  ∀ (c : Config) (s : State), s.fault = none → stall c s = false → pcSrc s = false → aligned s.pc = true →
    (s.exmem.memRead = true → s.exmem.memWrite = false ∧ aligned s.exmem.aluResult = true) →
    (s.exmem.memWrite = true → aligned s.exmem.aluResult = true) →
    ∃ t, clock c s = .next t ∧ t.fault = none ∧
      t.ifid = { instr := s.imem.readWord c.imemEndian s.pc, pc4 := s.pc + 4#32 } ∧ t.pc = s.pc + 4#32

/-- R127: the register file after a step that does not fault; and WB's publication to the forwarding unit: where EX takes
the MEM/WB value, MEM/WB writes that operand's register and the operand is the write-back value of this step. -/
def Obligations.WriteBackStage : Prop :=
  ∀ (c : Config) (s t : State), clock c s = .next t → t.fault = none →
    (∀ r, t.reg r =
      if s.memwb.regWrite = true ∧ s.memwb.writeReg ≠ 0#5 ∧ r = s.memwb.writeReg then
        (if s.memwb.memToReg = true then s.memwb.readData else s.memwb.aluResult)
      else s.reg r) ∧
    ∀ p ∈ [(forwardA c s, s.idex.rs, operandA c s), (forwardB c s, s.idex.rt, operandBF c s)], p.1 = 1#2 →
      s.memwb.regWrite = true ∧ s.memwb.writeReg = p.2.1 ∧
      p.2.2 = (if s.memwb.memToReg = true then s.memwb.readData else s.memwb.aluResult)

/-- R129, R130: the data memory and MEM/WB after a step that does not fault. The datum of a load is the word read;
what stands there when no read was made is left open (the spec's choice, D14). -/
def Obligations.MemoryStage : Prop :=
  ∀ (c : Config) (s t : State), clock c s = .next t → t.fault = none →
    t.memwb.regWrite = s.exmem.regWrite ∧ t.memwb.memToReg = s.exmem.memToReg ∧
    t.memwb.aluResult = s.exmem.aluResult ∧ t.memwb.writeReg = s.exmem.writeReg ∧
    (s.exmem.memRead = true → t.memwb.readData = s.dmem.readWord c.dmemEndian s.exmem.aluResult) ∧
    t.dmem =
      if s.exmem.memWrite = true then s.dmem.writeWord c.dmemEndian s.exmem.aluResult s.exmem.writeData else s.dmem

/-- R131, R133, R142: EX/MEM after a step that does not fault and squashes nothing in EX: the operands through the
forwarding multiplexers, the result and zero flag of the ALU path for some drawn value, the branch target, the store
datum (the forwarded rt value: the spec's choice, D13), the destination and the control bits. -/
def Obligations.ExecuteStage : Prop :=
  ∀ (c : Config) (s t : State), clock c s = .next t → t.fault = none → (pcSrc s = true → c.squash.val < 3) →
    ∃ a bF drawn : Word,
      a = (if forwardA c s = 2#2 then s.exmem.aluResult else if forwardA c s = 1#2 then wbValue s else s.idex.rd1) ∧
      bF = (if forwardB c s = 2#2 then s.exmem.aluResult else if forwardB c s = 1#2 then wbValue s else s.idex.rd2) ∧
      t.exmem.aluResult =
        (aluPath c a (if s.idex.ctl.aluSrc = true then s.idex.imm else bF) s.idex.ctl.aluOp s.idex.funct drawn).result ∧
      t.exmem.zero = (t.exmem.aluResult == 0#32) ∧
      t.exmem.target = s.idex.pc4 + shiftLeft2 s.idex.imm ∧
      t.exmem.writeData = bF ∧
      t.exmem.writeReg = (if s.idex.ctl.regDst = true then s.idex.rd else s.idex.rt) ∧
      t.exmem.branch = s.idex.ctl.branch ∧ t.exmem.memRead = s.idex.ctl.memRead ∧
      t.exmem.memWrite = s.idex.ctl.memWrite ∧ t.exmem.regWrite = s.idex.ctl.regWrite ∧
      t.exmem.memToReg = s.idex.ctl.memToReg

/-- R140, R141, R143: the forwarding selectors. The nearer producer wins, register 0 is never forwarded, and without
`P_FWD_EN` nothing is. R141 and R143, for selector B and for the flag, are derived by the spec. -/
def Obligations.ForwardingSelectors : Prop :=
  ∀ (c : Config) (s : State), ∀ p ∈ [(forwardA c s, s.idex.rs), (forwardB c s, s.idex.rt)],
    p.1 =
      if c.fwdEn = false then 0#2
      else if s.exmem.regWrite = true ∧ s.exmem.writeReg ≠ 0#5 ∧ s.exmem.writeReg = p.2 then 2#2
      else if s.memwb.regWrite = true ∧ s.memwb.writeReg ≠ 0#5 ∧ s.memwb.writeReg = p.2 then 1#2
      else 0#2

/-- R132, R134, R135: ID/EX after a step that does not fault: the fields of the word in IF/ID, the registers as WB has
left them, and the decoded bundle, or a bubble under a stall or a squash of slot 2. -/
def Obligations.DecodeStage : Prop :=
  ∀ (c : Config) (s t : State), clock c s = .next t → t.fault = none →
    t.idex.pc4 = s.ifid.pc4 ∧ t.idex.imm = sext32 (immOf s.ifid.instr) ∧
    t.idex.rs = rsOf s.ifid.instr ∧ t.idex.rt = rtOf s.ifid.instr ∧ t.idex.rd = rdOf s.ifid.instr ∧
    t.idex.funct = functOf s.ifid.instr ∧
    t.idex.rd1 = t.reg (rsOf s.ifid.instr) ∧ t.idex.rd2 = t.reg (rtOf s.ifid.instr) ∧
    t.idex.ctl =
      if stall c s = true ∨ (pcSrc s = true ∧ 2 ≤ c.squash.val) then ctl0 else controlBundle (opcodeOf s.ifid.instr)

/-- R145, R146, R147: the hazard unit stalls exactly when `P_HDU_EN`, a load is in EX and its rt is a register field of the
word in ID; with no redirect the step then holds the PC and IF/ID and makes a bubble; and the step after a stall does not
stall, so that a load-use hazard costs one bubble. That both fields are compared whatever the class, and register 0 too,
is derived by the spec (90_conflicts.md C6). -/
def Obligations.LoadUseStall : Prop :=
  ∀ (c : Config) (s : State),
    (stall c s = true ↔ c.hduEn = true ∧ s.idex.ctl.memRead = true ∧
      (s.idex.rt = rsOf s.ifid.instr ∨ s.idex.rt = rtOf s.ifid.instr)) ∧
    ∀ t, clock c s = .next t → stall c s = true →
      (pcSrc s = false → t.pc = s.pc ∧ t.ifid = s.ifid) ∧
      (t.fault = none → t.idex.ctl = ctl0 ∧ stall c t = false)

/-- R138: the PC after a step that does not fault, without the squash's override: the redirect mux, then the
PC-write-enable mux, so that a stall holds the PC even when `pcSrc = 1` (derived by the spec from the source's order). -/
def Obligations.PcMultiplexers : Prop :=
  ∀ (c : Config) (s t : State), clock c s = .next t → t.fault = none → (pcSrc s = true → c.squash.val < 2) →
    t.pc = if stall c s = true then s.pc else if pcSrc s = true then s.exmem.target else s.pc + 4#32

/-- R150: the redirect of a taken `beq` in a step with no stall, and the slots it squashes for each `P_BRANCH_SQUASH`
(the spec's choice, D9). -/
def Obligations.TakenBranchSquashes : Prop :=
  ∀ (c : Config) (s t : State), clock c s = .next t → t.fault = none → pcSrc s = true → stall c s = false →
    t.pc = s.exmem.target ∧
    t.ifid = (if 1 ≤ c.squash.val then { instr := 0#32, pc4 := 0#32 }
              else { instr := s.imem.readWord c.imemEndian s.pc, pc4 := s.pc + 4#32 }) ∧
    t.idex = (if 2 ≤ c.squash.val then { idExNext c s with ctl := ctl0 } else idExNext c s) ∧
    t.exmem = (if c.squash.val = 3 then
        { exMemNext c s with branch := false, memRead := false, memWrite := false, regWrite := false, memToReg := false }
      else exMemNext c s)

/-- R151: a taken `beq` in MEM while a load in EX stalls the word in ID. For k >= 2 the redirect wins and no fetch is
made; for k <= 1 the stall wins, nothing is squashed, and the redirect is lost: the spec's choice (D11). The premises that the control bits in
flight are the decoder's rule out states no run reaches. -/
def Obligations.StallAndRedirectTogether : Prop :=
  ∀ (c : Config) (s : State), s.fault = none → s.idex.ctl.Legal → s.exmem.Legal →
    pcSrc s = true → stall c s = true →
    ∃ t, clock c s = .next t ∧ t.fault = none ∧
      (2 ≤ c.squash.val →
        t.pc = s.exmem.target ∧ t.ifid = { instr := 0#32, pc4 := 0#32 } ∧ t.idex.ctl = ctl0 ∧
        (c.squash.val = 3 → t.exmem.memRead = false ∧ t.exmem.regWrite = false) ∧
        (c.squash.val = 2 → t.exmem = exMemNext c s)) ∧
      (c.squash.val ≤ 1 →
        t.pc = s.pc ∧ t.ifid = s.ifid ∧ t.idex = idExNext c s ∧ t.exmem = exMemNext c s ∧ pcSrc t = false)

/-- R135: a bubble stays one: the slot whose bundle is `Ctl0` makes EX/MEM control bits of zero, and a slot with those
makes no memory access, redirects nothing, forwards nothing, and writes no register in the step after. -/
def Obligations.BubbleDoesNothing : Prop :=
  ∀ (c : Config) (s t : State), clock c s = .next t → t.fault = none →
    (s.idex.ctl = ctl0 → t.exmem.branch = false ∧ t.exmem.memRead = false ∧ t.exmem.memWrite = false ∧
      t.exmem.regWrite = false ∧ t.exmem.memToReg = false ∧ stall c s = false) ∧
    (s.exmem.branch = false → s.exmem.memRead = false → s.exmem.memWrite = false → s.exmem.regWrite = false →
      pcSrc s = false ∧ t.dmem = s.dmem ∧ forwardA c s ≠ 2#2 ∧ forwardB c s ≠ 2#2 ∧ t.memwb.regWrite = false) ∧
    (s.memwb.regWrite = false → t.x = s.x ∧ forwardA c s ≠ 1#2 ∧ forwardB c s ≠ 1#2)

/-- R155, R190: a step that raises a fault commits nothing but the record of its faults, and no step follows: the spec's
choice (D16; assumption 7). -/
def Obligations.FaultingStepCommitsNothing : Prop :=
  ∀ (c : Config) (s : State), s.fault = none → stepFaults c s ≠ [] →
    clock c s = .next { s with fault := some { cycle := s.cycle + 1, faults := stepFaults c s } } ∧
    ∀ t, clock c s = .next t → clock c t = .fault (.stopped { cycle := s.cycle + 1, faults := stepFaults c s })

/-- R191, R193, R54: exactly which faults a step raises, in stage order: MEM's access, then IF's fetch, which a stall
prevents and a squash does not: the spec's choices D5, D16 and D23. -/
def Obligations.FaultsOfAStep : Prop :=
  ∀ (c : Config) (s : State),
    stepFaults c s =
      (if s.exmem.memRead = true ∧ s.exmem.memWrite = true then
         [{ kind := .memReadWriteConflict, stage := .mem, info := s.exmem.aluResult }]
       else if (s.exmem.memRead = true ∨ s.exmem.memWrite = true) ∧ s.exmem.aluResult.toNat % 4 ≠ 0 then
         [{ kind := .misalignedAccess, stage := .mem, info := s.exmem.aluResult }]
       else []) ++
      (if stall c s = false ∧ s.pc.toNat % 4 ≠ 0 then
         [{ kind := .misalignedAccess, stage := .ifetch, info := s.pc }]
       else [])

/-- R156, R195: the records a step appends, EX before ID, each with the step's number: the spec's choice (D15). -/
def Obligations.DiagnosticsOfAStep : Prop :=
  ∀ (c : Config) (s t : State), clock c s = .next t → t.fault = none →
    t.diagLog = s.diagLog ++
      ((if s.idex.ctl.aluOp = 0b11#2 then
          [{ cycle := s.cycle + 1, stage := .ex, kind := .unsupportedALUOp, detail := 3 }]
        else if s.idex.ctl.aluOp = 0b10#2 ∧ s.idex.funct ∉ [0x20#6, 0x22#6, 0x24#6, 0x25#6, 0x2A#6] ∧
            (s.idex.funct = 0x27#6 → c.norEn = false) then
          [{ cycle := s.cycle + 1, stage := .ex, kind := .unsupportedFunct, detail := s.idex.funct.toNat }]
        else []) ++
       (if opcodeOf s.ifid.instr ∉ [0x00#6, 0x23#6, 0x2B#6, 0x04#6, 0x08#6] then
          [{ cycle := s.cycle + 1, stage := .id, kind := .unknownOpcode, detail := (opcodeOf s.ifid.instr).toNat }]
        else []))

/-- R200, R33: the cycle counter counts the steps that do not fault, from 0 at reset; no instruction changes it (the
model's choice for the reference step, assumption 8), and nothing but the records' step numbers depends on it: with
another count the step gives the same state but for the count, and the same records but for their step numbers. The start
and the width are the spec's choice (D19). -/
def Obligations.CycleCounter : Prop :=
  State.reset.cycle = 0 ∧
  (∀ (c : Config) (s t : State), clock c s = .next t → t.cycle = if t.fault = none then s.cycle + 1 else s.cycle) ∧
  (∀ (i : Instr) (s t : State), exec i s = .next t → t.cycle = s.cycle) ∧
  ∀ (c : Config) (s t : State) (n : Nat), clock c s = .next t →
    ∃ u, clock c { s with cycle := n } = .next u ∧ u.cycle + s.cycle = t.cycle + n ∧
      u.diagLog.map (fun d => (d.stage, d.kind, d.detail)) = t.diagLog.map (fun d => (d.stage, d.kind, d.detail)) ∧
      u.fault.map (·.faults) = t.fault.map (·.faults) ∧
      { u with cycle := t.cycle, diagLog := t.diagLog, fault := t.fault } = t

/-- R27, R66: nothing the core executes writes `IMEM`: the spec's choice (D3). -/
def Obligations.InstructionMemoryIsNeverWritten : Prop :=
  (∀ s t : State, step s = .next t → t.imem = s.imem) ∧
  ∀ (i : Instr) (s t : State), exec i s = .next t → t.imem = s.imem

/-- R157, which the spec derives: running the stages WB, MEM, EX, ID, IF in sequence on one mutable state gives the values
of the clock step. -/
def Obligations.SourceOrderAgrees : Prop := ∀ (c : Config) (s : State), clockInOrder c s = clock c s

/-! ## Whole-machine rules -/

/-- The invariant holds at reset (R25, R38 to R42). It rests on the launch inputs of assumption 4 where it says that the
PC is aligned and the memories canonical. -/
def Obligations.InvariantAtReset : Prop := State.reset.Inv

/-- R25, R175, R177: PC+4 and every branch target of an aligned PC are aligned; from a misaligned initial PC the first
fetch faults. -/
def Obligations.BranchTargetsStayAligned : Prop :=
  (∀ pc : Word, aligned pc = true → aligned (pcPlus4 pc) = true) ∧
  (∀ pc4 imm : Word, aligned pc4 = true → aligned (branchTarget pc4 imm) = true) ∧
  ∀ (c : Config) (s : State), s.EmptyPipeline → aligned s.pc = false →
    clock c s = .next { s with
      fault := some { cycle := s.cycle + 1, faults := [{ kind := .misalignedAccess, stage := .ifetch, info := s.pc }] } }

/-- Every step keeps the invariant (R25, R177, R192), from every state that meets it. -/
def Obligations.StepKeepsTheInvariant : Prop := ∀ s t : State, s.Inv → step s = .next t → t.Inv

/-- R192: from a state that meets the invariant the one fault a step can raise is a misaligned `lw` or `sw` in MEM. -/
def Obligations.OnlyMisalignedDataAccessFaults : Prop :=
  ∀ (c : Config) (s t : State), s.Inv → s.fault = none → clock c s = .next t →
    t.fault = none ∨
    ((s.exmem.memRead = true ∨ s.exmem.memWrite = true) ∧ aligned s.exmem.aluResult = false ∧
      t.fault = some { cycle := s.cycle + 1, faults := [{ kind := .misalignedAccess, stage := .mem, info := s.exmem.aluResult }] })

/-- R39, R40: after reset the PC is the configured initial value and every latch is zero; and R86, which the spec derives:
the zero word in IF/ID decodes as an R-type word with an unsupported funct and rd = 0, whose result is discarded. The
numbers that make its funct unsupported are the spec's choice (D1, assumption 9). -/
def Obligations.ResetZeroesTheLatches : Prop :=
  (∀ (c : Config) (h : LaunchInputs) (s : State), construct c h = .ok s →
    s.pc = h.initPc ∧
    s.ifid = { instr := 0#32, pc4 := 0#32 } ∧
    s.idex = { ctl := ctl0, pc4 := 0#32, rd1 := 0#32, rd2 := 0#32, imm := 0#32, rs := 0#5, rt := 0#5, rd := 0#5,
               funct := 0#6 } ∧
    s.exmem = { branch := false, memRead := false, memWrite := false, regWrite := false, memToReg := false,
                target := 0#32, zero := false, aluResult := 0#32, writeData := 0#32, writeReg := 0#5 } ∧
    s.memwb = { regWrite := false, memToReg := false, readData := 0#32, aluResult := 0#32, writeReg := 0#5 }) ∧
  ctl0 = { regDst := false, branch := false, memRead := false, memToReg := false, aluOp := 0#2, memWrite := false,
           aluSrc := false, regWrite := false } ∧
  decode 0#32 = .unsupportedFunct 0#6 ∧ rdOf 0#32 = 0#5 ∧ ∀ (x : RegFile) (v : Word), x.write (rdOf 0#32) v = x

/-- R38, R41, R42, R220: the registers, the memories and the bookkeeping a construction leaves, for all launch inputs and
files. Register 0 reads zero; every other register holds its last pair's value, or its launch value where no pair names
it; each byte of the memories is that of the last word placed there, or its launch byte; no cycle is counted, nothing is
logged and no fault is recorded. The launch inputs and the count's start are the spec's choices (D6, D19). -/
def Obligations.ConstructionPlacesTheFiles : Prop :=
  ∀ (c : Config) (h : LaunchInputs) (s : State), h.imemInit.wf = true → h.dmemInit.wf = true →
    construct c h = .ok s →
    s.reg 0#5 = 0#32 ∧
    (∀ r : RegIdx, r ≠ 0#5 →
      s.reg r = (((scanPairs indexToken (splitLines h.regFile)).reverse.find? (fun p => p.1 == r.toNat)).map
        Prod.snd).getD (h.regInit.read r)) ∧
    (∀ k, s.imem.read k =
      match (scanPairs hexToken (splitLines h.imemFile)).reverse.find? (fun p => p.1.toNat == k - k % 4) with
      | some p => byteOfWord c.imemEndian p.2 (k % 4)
      | none => h.imemInit.read k) ∧
    (∀ k, s.dmem.read k =
      match (scanPairs hexToken (splitLines h.dmemFile)).reverse.find? (fun p => p.1.toNat == k - k % 4) with
      | some p => byteOfWord c.dmemEndian p.2 (k % 4)
      | none => h.dmemInit.read k) ∧
    s.cycle = 0 ∧ s.diagLog = [] ∧ s.fault = none

/-- R166, R171, R172, R180, R238, R241: an instruction that runs alone in the pipeline. From an empty pipeline at an
aligned PC, where the word at the PC decodes to `i` and three nops follow, five clock steps leave the registers and the
data memory that the meaning of `i` leaves, whatever the configuration; the result of a `nor` that the configuration
does not know is the draw of its EX step, by the model's form of a draw (assumption 3: the argument is the `draws` counter,
and no value is claimed of it). -/
def Obligations.LoneInstructionRetiresInFiveSteps : Prop :=
  ∀ (s t : State) (i : Instr), s.EmptyPipeline → aligned s.pc = true →
    decode (codeWord Config.machine s s.pc) = .instr i →
    (∀ n ∈ [4#32, 8#32, 12#32], codeWord Config.machine s (s.pc + n) = nopWord) →
    exec i s = .next t → t.fault = none →
    ∃ u, Host.Core.run core 5 s = .next u ∧ u.fault = none ∧ u.dmem = t.dmem ∧
      u.x = match i with
        | .nor rd _ _ => if Config.machine.norEn = true then t.x else s.x.write rd (Config.aluDraw (s.draws + 2))
        | _ => t.x

/-- R152: a `beq` that runs alone redirects the PC at the end of its fourth step, for every squash depth; one that is not
taken lets the PC run on. -/
def Obligations.LoneBranchRedirectsInItsFourthStep : Prop :=
  ∀ (c : Config) (s : State) (rs rt : RegIdx) (off : BitVec 16), s.EmptyPipeline → aligned s.pc = true →
    decode (codeWord c s s.pc) = .instr (.beq rs rt off) →
    (∀ n ∈ [4#32, 8#32, 12#32], codeWord c s (s.pc + n) = nopWord) →
    ∃ u, clockRun c 4 s = .next u ∧
      u.pc = if s.reg rs = s.reg rt then s.pc + 4#32 + off.signExtend 32 * 4#32 else s.pc + 16#32

/-- R83, R86: an R-type word with an unsupported funct that runs alone writes a drawn value to its rd, register 0
excepted, and logs `UnsupportedFunct` in its EX step. -/
def Obligations.LoneUnsupportedFunctWritesADraw : Prop :=
  ∀ (c : Config) (s : State) (w : Word), s.EmptyPipeline → aligned s.pc = true → codeWord c s s.pc = w →
    opcodeOf w = opRType → functOf w ∉ [0x20#6, 0x22#6, 0x24#6, 0x25#6, 0x2A#6, 0x27#6] →
    (∀ n ∈ [4#32, 8#32, 12#32], codeWord c s (s.pc + n) = nopWord) →
    ∃ u v, clockRun c 5 s = .next u ∧ u.x = s.x.write (rdOf w) v ∧ u.dmem = s.dmem ∧
      { cycle := s.cycle + 3, stage := .ex, kind := .unsupportedFunct, detail := (functOf w).toNat } ∈ u.diagLog

/-- R239: with forwarding and hazard detection on and k = 3, the pipelined core commits the reference step's sequence of
register and memory writes. From an empty pipeline, with no word in `IMEM` that writes a drawn value to a register,
there is a count `retired n` of the reference steps whose write-back the first `n` clock steps have done: it starts at
0, grows by at most one a step and by at least one in every four, and after `n` clock steps the registers are those
after `retired n` reference steps and the data memory is that after `retired n` or one more (a store reaches memory one
stage before write-back). R239 is a claim the spec derives; that it is read as such a count, with these bounds and for
programs without a drawn register write, is the model's reading of it (assumption 13). -/
def Obligations.PipelineCommitsTheReferenceSequence : Prop :=
  ∀ (c : Config) (s : State), c.fwdEn = true → c.hduEn = true → c.squash.val = 3 → s.EmptyPipeline →
    (∀ a, aligned a = true → Determined c (codeWord c s a)) →
    ∃ retired : Nat → Nat, retired 0 = 0 ∧
      (∀ n, retired n ≤ retired (n + 1) ∧ retired (n + 1) ≤ retired n + 1 ∧ n ≤ 4 * retired n + 5) ∧
      ∀ n t, clockRun c n s = .next t →
        ∃ a, seqRun c (retired n) s = .next a ∧ t.x = a.x ∧
          (t.dmem = a.dmem ∨ ∃ b, seqStep c a = .next b ∧ t.dmem = b.dmem)

/-- R58: the byte order of the memories cannot be observed. Two configurations that differ in byte order only, from
states that differ only in memories holding the same words at every aligned address, step alike, to states that differ
so again. -/
def Obligations.ByteOrderIsUnobservable : Prop :=
  ∀ (c1 c2 : Config) (s t : State) (im dm : Memory),
    { c2 with imemEndian := c1.imemEndian, dmemEndian := c1.dmemEndian } = c1 →
    s.dmem.wf = true → dm.wf = true →
    SameWords c1.imemEndian s.imem c2.imemEndian im → SameWords c1.dmemEndian s.dmem c2.dmemEndian dm →
    clock c1 s = .next t →
    ∃ dm', clock c2 { s with imem := im, dmem := dm } = .next { t with imem := im, dmem := dm' } ∧
      t.dmem.wf = true ∧ dm'.wf = true ∧ SameWords c1.imemEndian t.imem c2.imemEndian im ∧
      SameWords c1.dmemEndian t.dmem c2.dmemEndian dm'

/-- R230, R203, R13: a run is construction, then `P_NCYCLES` steps, stopping early only on a fault (D16). Where construction
is refused there is no run. Else the run takes some number `m` of steps: all `P_NCYCLES`, where none faults, and else those
up to the faulting one, whose number its record holds; the run's result is the state after step `m`, and the host observes
the state after each step from the first to that one, and nothing else. -/
def Obligations.RunEndsAfterItsStepsOrAtAFault : Prop :=
  (∀ (c : Config) (h : LaunchInputs) (err : LoadError), construct c h = .error err →
    hostRun c h = .error err ∧ hostObserve c h = .error err) ∧
  ∀ (c : Config) (h : LaunchInputs) (s : State), construct c h = .ok s →
    ∃ (m : Nat) (u : State) (seen : List State), hostRun c h = .ok u ∧ hostObserve c h = .ok seen ∧
      m ≤ h.nCycles ∧ clockRun c m s = .next u ∧ seen.length = m ∧
      (∀ i < m, ∃ v, seen[i]? = some v ∧ clockRun c (i + 1) s = .next v) ∧
      ((u.fault = none ∧ m = h.nCycles ∧ u.cycle = m) ∨ (∃ r, u.fault = some r ∧ r.cycle = m ∧ u.cycle + 1 = m))

/-! ## The loader -/

/-- R225, R226: loading the pairs of a memory file into a canonical memory: every address aligned, it succeeds, and the
word at an aligned address is the last pair's for it, or the launch word where no pair names it; a misaligned address is
refused (the spec's choice, D21). -/
def Obligations.MemoryFileLoads : Prop :=
  ∀ (e : Endian) (m : Memory) (pairs : List (Word × Word)), m.wf = true →
    ((∀ p ∈ pairs, aligned p.1 = true) →
      ∃ m', loadMemory e m pairs = .ok m' ∧ m'.wf = true ∧
        ∀ a, aligned a = true →
          m'.readWord e a = ((pairs.reverse.find? (fun p => p.1 == a)).map Prod.snd).getD (m.readWord e a)) ∧
    ((∃ p ∈ pairs, aligned p.1 = false) → ∃ a, aligned a = false ∧ loadMemory e m pairs = .error (.misalignedAddress a))

/-- R227: loading the pairs of the register file: with every index below 32 it succeeds, register 0 is unchanged and
every other register holds its last pair's value, or what it held; an index from 32 upward is refused (the spec's choice, D22). -/
def Obligations.RegisterFileLoads : Prop :=
  ∀ (x : RegFile) (pairs : List (Nat × Word)),
    ((∀ p ∈ pairs, p.1 < 32) →
      ∃ y, loadRegisters x pairs = .ok y ∧ y.read 0#5 = 0#32 ∧
        ∀ r : RegIdx, r ≠ 0#5 →
          y.read r = ((pairs.reverse.find? (fun p => p.1 == r.toNat)).map Prod.snd).getD (x.read r)) ∧
    ((∃ p ∈ pairs, 32 ≤ p.1) → ∃ i, 32 ≤ i ∧ loadRegisters x pairs = .error (.registerIndex i))

/-- R225, R227: the lines of a file are read up to the first that is not two tokens of the right form; it and every line
after it are ignored (the token syntax is the spec's choice, D20, D22). -/
def Obligations.MalformedLineEndsTheScan : Prop :=
  ∀ (α : Type) (first : List Char → Option α) (good : List (List Char × α × Word)) (bad : List Char)
    (rest : List (List Char)),
    (∀ q ∈ good, LineReads first q.1 q.2) → (¬ ∃ p, LineReads first bad p) →
    scanPairs first (good.map Prod.fst ++ bad :: rest) = good.map Prod.snd ∧
    scanPairs first (good.map Prod.fst) = good.map Prod.snd
end

