-- ==== Sys2Proof/Laws/Decode.lean ====
section
/-!
SUPPORT. The fields of an encoded word, layout by layout, and that every instruction is well formed.
-/

namespace Sys2Proof

/-! ## R-type layout (30_encoding.md R72) -/

@[simp] theorem opcodeOf_rWord (fn : BitVec 6) (rd rs rt : RegIdx) : opcodeOf (rWord fn rd rs rt) = opRType := by
  apply BitVec.eq_of_getLsbD_eq
  intro i hi
  simp only [opcodeOf, rWord, BitVec.getLsbD_extractLsb', BitVec.getLsbD_append]
  interval_cases i <;> simp

@[simp] theorem rsOf_rWord (fn : BitVec 6) (rd rs rt : RegIdx) : rsOf (rWord fn rd rs rt) = rs := by
  apply BitVec.eq_of_getLsbD_eq
  intro i hi
  simp only [rsOf, rWord, BitVec.getLsbD_extractLsb', BitVec.getLsbD_append]
  interval_cases i <;> simp

@[simp] theorem rtOf_rWord (fn : BitVec 6) (rd rs rt : RegIdx) : rtOf (rWord fn rd rs rt) = rt := by
  apply BitVec.eq_of_getLsbD_eq
  intro i hi
  simp only [rtOf, rWord, BitVec.getLsbD_extractLsb', BitVec.getLsbD_append]
  interval_cases i <;> simp

@[simp] theorem rdOf_rWord (fn : BitVec 6) (rd rs rt : RegIdx) : rdOf (rWord fn rd rs rt) = rd := by
  apply BitVec.eq_of_getLsbD_eq
  intro i hi
  simp only [rdOf, rWord, BitVec.getLsbD_extractLsb', BitVec.getLsbD_append]
  interval_cases i <;> simp

@[simp] theorem functOf_rWord (fn : BitVec 6) (rd rs rt : RegIdx) : functOf (rWord fn rd rs rt) = fn := by
  apply BitVec.eq_of_getLsbD_eq
  intro i hi
  simp only [functOf, rWord, BitVec.getLsbD_extractLsb', BitVec.getLsbD_append]
  interval_cases i <;> simp

/-! ## I-type layout (R73) -/

@[simp] theorem opcodeOf_iWord (op : BitVec 6) (rs rt : RegIdx) (imm : BitVec 16) :
    opcodeOf (iWord op rs rt imm) = op := by
  apply BitVec.eq_of_getLsbD_eq
  intro i hi
  simp only [opcodeOf, iWord, BitVec.getLsbD_extractLsb', BitVec.getLsbD_append]
  interval_cases i <;> simp

@[simp] theorem rsOf_iWord (op : BitVec 6) (rs rt : RegIdx) (imm : BitVec 16) : rsOf (iWord op rs rt imm) = rs := by
  apply BitVec.eq_of_getLsbD_eq
  intro i hi
  simp only [rsOf, iWord, BitVec.getLsbD_extractLsb', BitVec.getLsbD_append]
  interval_cases i <;> simp

@[simp] theorem rtOf_iWord (op : BitVec 6) (rs rt : RegIdx) (imm : BitVec 16) : rtOf (iWord op rs rt imm) = rt := by
  apply BitVec.eq_of_getLsbD_eq
  intro i hi
  simp only [rtOf, iWord, BitVec.getLsbD_extractLsb', BitVec.getLsbD_append]
  interval_cases i <;> simp

@[simp] theorem immOf_iWord (op : BitVec 6) (rs rt : RegIdx) (imm : BitVec 16) : immOf (iWord op rs rt imm) = imm := by
  apply BitVec.eq_of_getLsbD_eq
  intro i hi
  simp only [immOf, iWord, BitVec.getLsbD_extractLsb', BitVec.getLsbD_append]
  interval_cases i <;> simp

/-! ## Well-formedness -/

theorem regNumberOk_toNat (r : RegIdx) : regNumberOk r.toNat = true := decide_eq_true r.isLt

theorem immediateOk_toInt (v : BitVec 16) : immediateOk v.toInt = true := by
  have h := BitVec.toInt_lt (x := v)
  have h' := BitVec.le_toInt v
  simp only [immediateOk, Bool.and_eq_true, decide_eq_true_eq]
  omega

/-- The types of the operands keep every bound the spec states on them. -/
theorem Instr.wellFormed_all (i : Instr) : i.wellFormed = true := by
  cases i <;>
    simp only [Instr.wellFormed, Instr.registers, Instr.immediates, List.all_cons, List.all_nil, regNumberOk_toNat,
      immediateOk_toInt, Bool.and_true]

end Sys2Proof
end

