-- ==== Sys2Proof/Laws/Memory.lean ====
section
/-!
SUPPORT. The laws of memory: every operation keeps the canonical form; a byte written is read back, every other byte
reads as before; and what the word accesses come to.
-/

namespace Sys2Proof.Machine

/-! ## The canonical form -/

theorem Memory.wfFrom_cons (lo a : Nat) (b : Byte) (m : Memory) :
    Memory.wfFrom lo ((a, b) :: m) = true ↔
      lo ≤ a ∧ a < 2 ^ 32 ∧ b ≠ unlistedByte ∧ Memory.wfFrom (a + 1) m = true := by
  simp [Memory.wfFrom, and_assoc]

theorem Memory.wfFrom_mono {lo lo' : Nat} {m : Memory} (h : lo' ≤ lo) (hm : Memory.wfFrom lo m = true) :
    Memory.wfFrom lo' m = true := by
  cases m with
  | nil => rfl
  | cons e m =>
    obtain ⟨a, b⟩ := e
    rw [Memory.wfFrom_cons] at hm ⊢
    exact ⟨by omega, hm.2⟩

theorem Memory.wfFrom_consCell {lo a : Nat} {b : Byte} {m : Memory} (hlo : lo ≤ a) (ha : a < 2 ^ 32)
    (hm : Memory.wfFrom (a + 1) m = true) : Memory.wfFrom lo (Memory.consCell a b m) = true := by
  unfold Memory.consCell
  split
  · exact Memory.wfFrom_mono (by omega) hm
  · exact (Memory.wfFrom_cons ..).mpr ⟨hlo, ha, ‹_›, hm⟩

theorem Memory.wfFrom_write {lo a : Nat} {b : Byte} {m : Memory} (hlo : lo ≤ a) (ha : a < 2 ^ 32)
    (hm : Memory.wfFrom lo m = true) : Memory.wfFrom lo (m.write a b) = true := by
  induction m generalizing lo with
  | nil => exact Memory.wfFrom_consCell hlo ha rfl
  | cons e m ih =>
    obtain ⟨k, c⟩ := e
    obtain ⟨hk, hk', hc, hm'⟩ := (Memory.wfFrom_cons ..).mp hm
    unfold Memory.write
    split
    · exact Memory.wfFrom_consCell hlo ha ((Memory.wfFrom_cons ..).mpr ⟨by omega, hk', hc, hm'⟩)
    · split
      · subst k; exact Memory.wfFrom_consCell hlo ha hm'
      · exact (Memory.wfFrom_cons ..).mpr ⟨hk, hk', hc, ih (by omega) hm'⟩

/-- A byte write keeps the canonical form. -/
theorem Memory.wf_write {m : Memory} {a : Nat} {b : Byte} (hm : m.wf = true) (ha : a < 2 ^ 32) :
    (m.write a b).wf = true := Memory.wfFrom_write (Nat.zero_le a) ha hm

/-! ## Reading after writing -/

theorem Memory.read_of_lt {lo k : Nat} {m : Memory} (hm : Memory.wfFrom lo m = true) (h : k < lo) :
    m.read k = unlistedByte := by
  induction m generalizing lo with
  | nil => rfl
  | cons e m ih =>
    obtain ⟨a, b⟩ := e
    obtain ⟨ha, _, _, hm'⟩ := (Memory.wfFrom_cons ..).mp hm
    unfold Memory.read
    rw [if_neg (by omega)]
    exact ih hm' (by omega)

theorem Memory.read_consCell_self {a : Nat} {b : Byte} {m : Memory} (h : m.read a = unlistedByte) :
    (Memory.consCell a b m).read a = b := by
  unfold Memory.consCell
  split
  · rw [h]; exact ‹b = unlistedByte›.symm
  · simp [Memory.read]

theorem Memory.read_consCell_ne {a k : Nat} {b : Byte} {m : Memory} (h : a ≠ k) :
    (Memory.consCell a b m).read k = m.read k := by
  unfold Memory.consCell
  split
  · rfl
  · simp [Memory.read, h]

theorem Memory.read_write_self_from {lo a : Nat} {b : Byte} {m : Memory} (hm : Memory.wfFrom lo m = true) :
    (m.write a b).read a = b := by
  induction m generalizing lo with
  | nil => exact Memory.read_consCell_self rfl
  | cons e m ih =>
    obtain ⟨k, c⟩ := e
    obtain ⟨_, hk', hc, hm'⟩ := (Memory.wfFrom_cons ..).mp hm
    unfold Memory.write
    split
    · refine Memory.read_consCell_self (Memory.read_of_lt (lo := k) ?_ ‹_›)
      exact (Memory.wfFrom_cons ..).mpr ⟨le_rfl, hk', hc, hm'⟩
    · split
      · subst k; exact Memory.read_consCell_self (Memory.read_of_lt hm' (by omega))
      · unfold Memory.read
        rw [if_neg (by omega)]
        exact ih hm'

/-- A byte written to a canonical memory is read back. -/
theorem Memory.read_write_self {m : Memory} {a : Nat} {b : Byte} (hm : m.wf = true) : (m.write a b).read a = b :=
  Memory.read_write_self_from hm

/-- A byte write leaves every other byte as it was, in any memory. -/
theorem Memory.read_write_ne {m : Memory} {a k : Nat} {b : Byte} (h : a ≠ k) : (m.write a b).read k = m.read k := by
  induction m with
  | nil => exact Memory.read_consCell_ne h
  | cons e m ih =>
    obtain ⟨j, c⟩ := e
    unfold Memory.write
    split
    · exact Memory.read_consCell_ne h
    · split
      · subst j; rw [Memory.read_consCell_ne h]; simp [Memory.read, h]
      · by_cases hj : j = k <;> simp [Memory.read, hj, ih]

/-! ## Words -/

/-- An address is aligned when it is a multiple of 4 (20_memory.md R54). -/
theorem aligned_iff (a : Word) : aligned a = true ↔ a.toNat % 4 = 0 := by
  rw [aligned, beq_iff_eq, ← BitVec.toNat_inj]
  simp [BitVec.extractLsb'_toNat]

/-- The four addresses of an aligned word do not wrap (R56). -/
theorem aligned_no_wrap {a : Word} (h : aligned a = true) : a.toNat + 3 < 2 ^ 32 := by
  have := (aligned_iff a).mp h
  have := a.isLt
  omega

/-- A word write at an aligned address keeps the canonical form. -/
theorem Memory.wf_writeWord {e : Endian} {m : Memory} {a w : Word} (hm : m.wf = true) (ha : aligned a = true) :
    (m.writeWord e a w).wf = true := by
  have := aligned_no_wrap ha
  exact Memory.wf_write (Memory.wf_write (Memory.wf_write (Memory.wf_write hm (by omega)) (by omega)) (by omega)) (by omega)

/-- A word write leaves every byte outside its four as it was. -/
theorem Memory.read_writeWord_outside {e : Endian} {m : Memory} {a w : Word} {k : Nat}
    (h : k < a.toNat ∨ a.toNat + 4 ≤ k) : (m.writeWord e a w).read k = m.read k := by
  unfold Memory.writeWord
  rw [Memory.read_write_ne (by omega), Memory.read_write_ne (by omega), Memory.read_write_ne (by omega),
    Memory.read_write_ne (by omega)]

/-- The word of a word's own bytes is the word (R53). -/
theorem wordOfBytes_byteOfWord (e : Endian) (w : Word) :
    wordOfBytes e (byteOfWord e w 0) (byteOfWord e w 1) (byteOfWord e w 2) (byteOfWord e w 3) = w := by
  apply BitVec.eq_of_getLsbD_eq
  intro i hi
  cases e <;>
    simp only [wordOfBytes, byteOfWord, BitVec.getLsbD_extractLsb', BitVec.getLsbD_append] <;>
    interval_cases i <;> simp

/-- What `MemRead` can answer. -/
theorem memRead_eq_some {e : Endian} {m : Memory} {a w : Word} :
    memRead e m a = some w ↔ aligned a = true ∧ m.readWord e a = w := by
  unfold memRead
  split <;> simp_all

theorem memRead_eq_none {e : Endian} {m : Memory} {a : Word} : memRead e m a = none ↔ aligned a = false := by
  unfold memRead
  split <;> simp_all

/-- What `MemWrite` can answer. -/
theorem memWrite_eq_some {e : Endian} {m m' : Memory} {a w : Word} :
    memWrite e m a w = some m' ↔ aligned a = true ∧ m.writeWord e a w = m' := by
  unfold memWrite
  split <;> simp_all

theorem memWrite_eq_none {e : Endian} {m : Memory} {a w : Word} : memWrite e m a w = none ↔ aligned a = false := by
  unfold memWrite
  split <;> simp_all

/-- Everything a memory access can do to the memory: nothing, or one aligned word write. -/
theorem Memory.access_memOr_cases (e : Endian) (m : Memory) (a w : Word) (rd wr : Bool) :
    (m.access e a w rd wr).memOr m = m ∨
      (wr = true ∧ rd = false ∧ aligned a = true ∧ (m.access e a w rd wr).memOr m = m.writeWord e a w) := by
  unfold Memory.access memRead memWrite MemAccess.memOr
  cases rd <;> cases wr <;> cases aligned a <;> simp

/-- An access keeps the canonical form. -/
theorem Memory.wf_access {e : Endian} {m : Memory} {a w : Word} {rd wr : Bool} (hm : m.wf = true) :
    ((m.access e a w rd wr).memOr m).wf = true := by
  rcases Memory.access_memOr_cases e m a w rd wr with h | ⟨_, _, ha, h⟩ <;> rw [h]
  · exact hm
  · exact Memory.wf_writeWord hm ha

/-- The memory reset leaves is canonical. -/
theorem State.reset_memory_wf : State.reset.imem.wf = true ∧ State.reset.dmem.wf = true := ⟨rfl, rfl⟩

end Sys2Proof.Machine
end

