-- ==== Sys2Proof/Laws/State.lean ====
section
/-!
SUPPORT. One lemma per field of the state per update, and the reset values.
-/

namespace Sys2Proof.Machine

/-! ## `State.setReg` -/

@[simp] theorem State.setReg_x (s : State) (r : RegIdx) (v : Word) : (s.setReg r v).x = s.x.write r v := rfl
@[simp] theorem State.setReg_pc (s : State) (r : RegIdx) (v : Word) : (s.setReg r v).pc = s.pc := rfl
@[simp] theorem State.setReg_ifid (s : State) (r : RegIdx) (v : Word) : (s.setReg r v).ifid = s.ifid := rfl
@[simp] theorem State.setReg_idex (s : State) (r : RegIdx) (v : Word) : (s.setReg r v).idex = s.idex := rfl
@[simp] theorem State.setReg_exmem (s : State) (r : RegIdx) (v : Word) : (s.setReg r v).exmem = s.exmem := rfl
@[simp] theorem State.setReg_memwb (s : State) (r : RegIdx) (v : Word) : (s.setReg r v).memwb = s.memwb := rfl
@[simp] theorem State.setReg_imem (s : State) (r : RegIdx) (v : Word) : (s.setReg r v).imem = s.imem := rfl
@[simp] theorem State.setReg_dmem (s : State) (r : RegIdx) (v : Word) : (s.setReg r v).dmem = s.dmem := rfl
@[simp] theorem State.setReg_cycle (s : State) (r : RegIdx) (v : Word) : (s.setReg r v).cycle = s.cycle := rfl
@[simp] theorem State.setReg_diagLog (s : State) (r : RegIdx) (v : Word) : (s.setReg r v).diagLog = s.diagLog := rfl
@[simp] theorem State.setReg_fault (s : State) (r : RegIdx) (v : Word) : (s.setReg r v).fault = s.fault := rfl
@[simp] theorem State.setReg_draws (s : State) (r : RegIdx) (v : Word) : (s.setReg r v).draws = s.draws := rfl

/-! ## `State.advance` -/

@[simp] theorem State.advance_x (s : State) : (s.advance).x = s.x := rfl
@[simp] theorem State.advance_pc (s : State) : (s.advance).pc = s.pc + 4#32 := rfl
@[simp] theorem State.advance_ifid (s : State) : (s.advance).ifid = s.ifid := rfl
@[simp] theorem State.advance_idex (s : State) : (s.advance).idex = s.idex := rfl
@[simp] theorem State.advance_exmem (s : State) : (s.advance).exmem = s.exmem := rfl
@[simp] theorem State.advance_memwb (s : State) : (s.advance).memwb = s.memwb := rfl
@[simp] theorem State.advance_imem (s : State) : (s.advance).imem = s.imem := rfl
@[simp] theorem State.advance_dmem (s : State) : (s.advance).dmem = s.dmem := rfl
@[simp] theorem State.advance_cycle (s : State) : (s.advance).cycle = s.cycle := rfl
@[simp] theorem State.advance_diagLog (s : State) : (s.advance).diagLog = s.diagLog := rfl
@[simp] theorem State.advance_fault (s : State) : (s.advance).fault = s.fault := rfl
@[simp] theorem State.advance_draws (s : State) : (s.advance).draws = s.draws + 1 := rfl

/-! ## `State.raise` -/

@[simp] theorem State.raise_x (s : State) (fs : List FaultEntry) : (s.raise fs).x = s.x := rfl
@[simp] theorem State.raise_pc (s : State) (fs : List FaultEntry) : (s.raise fs).pc = s.pc := rfl
@[simp] theorem State.raise_ifid (s : State) (fs : List FaultEntry) : (s.raise fs).ifid = s.ifid := rfl
@[simp] theorem State.raise_idex (s : State) (fs : List FaultEntry) : (s.raise fs).idex = s.idex := rfl
@[simp] theorem State.raise_exmem (s : State) (fs : List FaultEntry) : (s.raise fs).exmem = s.exmem := rfl
@[simp] theorem State.raise_memwb (s : State) (fs : List FaultEntry) : (s.raise fs).memwb = s.memwb := rfl
@[simp] theorem State.raise_imem (s : State) (fs : List FaultEntry) : (s.raise fs).imem = s.imem := rfl
@[simp] theorem State.raise_dmem (s : State) (fs : List FaultEntry) : (s.raise fs).dmem = s.dmem := rfl
@[simp] theorem State.raise_cycle (s : State) (fs : List FaultEntry) : (s.raise fs).cycle = s.cycle := rfl
@[simp] theorem State.raise_diagLog (s : State) (fs : List FaultEntry) : (s.raise fs).diagLog = s.diagLog := rfl
@[simp] theorem State.raise_fault (s : State) (fs : List FaultEntry) : (s.raise fs).fault = some { cycle := s.cycle + 1, faults := fs } := rfl
@[simp] theorem State.raise_draws (s : State) (fs : List FaultEntry) : (s.raise fs).draws = s.draws := rfl

/-! ## `State.log` -/

@[simp] theorem State.log_x (s : State) (ds : List Diag) : (s.log ds).x = s.x := rfl
@[simp] theorem State.log_pc (s : State) (ds : List Diag) : (s.log ds).pc = s.pc := rfl
@[simp] theorem State.log_ifid (s : State) (ds : List Diag) : (s.log ds).ifid = s.ifid := rfl
@[simp] theorem State.log_idex (s : State) (ds : List Diag) : (s.log ds).idex = s.idex := rfl
@[simp] theorem State.log_exmem (s : State) (ds : List Diag) : (s.log ds).exmem = s.exmem := rfl
@[simp] theorem State.log_memwb (s : State) (ds : List Diag) : (s.log ds).memwb = s.memwb := rfl
@[simp] theorem State.log_imem (s : State) (ds : List Diag) : (s.log ds).imem = s.imem := rfl
@[simp] theorem State.log_dmem (s : State) (ds : List Diag) : (s.log ds).dmem = s.dmem := rfl
@[simp] theorem State.log_cycle (s : State) (ds : List Diag) : (s.log ds).cycle = s.cycle := rfl
@[simp] theorem State.log_diagLog (s : State) (ds : List Diag) : (s.log ds).diagLog = s.diagLog ++ ds := rfl
@[simp] theorem State.log_fault (s : State) (ds : List Diag) : (s.log ds).fault = s.fault := rfl
@[simp] theorem State.log_draws (s : State) (ds : List Diag) : (s.log ds).draws = s.draws := rfl

/-! ## Reading registers -/

@[simp] theorem State.reg_advance (s : State) (r : RegIdx) : s.advance.reg r = s.reg r := rfl
@[simp] theorem State.reg_raise (s : State) (fs : List FaultEntry) (r : RegIdx) : (s.raise fs).reg r = s.reg r := rfl
@[simp] theorem State.reg_log (s : State) (ds : List Diag) (r : RegIdx) : (s.log ds).reg r = s.reg r := rfl

/-! ## The launch state -/

@[simp] theorem State.launch_pc (pc : Word) (x : RegFile) (im dm : Memory) : (State.launch pc x im dm).pc = pc := rfl
@[simp] theorem State.launch_imem (pc : Word) (x : RegFile) (im dm : Memory) : (State.launch pc x im dm).imem = im := rfl
@[simp] theorem State.launch_dmem (pc : Word) (x : RegFile) (im dm : Memory) : (State.launch pc x im dm).dmem = dm := rfl
@[simp] theorem State.launch_fault (pc : Word) (x : RegFile) (im dm : Memory) :
    (State.launch pc x im dm).fault = none := rfl

end Sys2Proof.Machine
end

