-- ==== Sys2Proof/Laws/Ops.lean ====
section
/-!
SUPPORT. One lemma for each shared operation that says what it can do: the register file, the guard of every step, the
common end of an instruction.
-/

namespace Sys2Proof.Machine

/-! ## Register file -/

@[simp] theorem RegFile.read_zero (x : RegFile) : x.read 0#5 = 0#32 := rfl

@[simp] theorem RegFile.write_zero (x : RegFile) (v : Word) : x.write 0#5 v = x := rfl

theorem RegFile.read_of_ne {x : RegFile} {r : RegIdx} (h : r ≠ 0#5) : x.read r = x[r.toNat] := if_neg h

/-- A register read after a register write. -/
theorem RegFile.read_write (x : RegFile) (w : RegIdx) (v : Word) (r : RegIdx) :
    (x.write w v).read r = if r = w ∧ w ≠ 0#5 then v else x.read r := by
  by_cases hw : w = 0#5
  · simp [hw]
  by_cases hr : r = 0#5
  · subst hr; simp [Ne.symm hw]
  rw [RegFile.read_of_ne hr, RegFile.write, if_neg hw, Vector.getElem_set, RegFile.read_of_ne hr]
  by_cases h : r = w
  · simp [h, hw]
  · have : w.toNat ≠ r.toNat := fun e => h (BitVec.eq_of_toNat_eq e).symm
    simp [h, this]

/-- A register read after a register write, on a state. -/
theorem State.reg_setReg (s : State) (w : RegIdx) (v : Word) (r : RegIdx) :
    (s.setReg w v).reg r = if r = w ∧ w ≠ 0#5 then v else s.reg r := RegFile.read_write s.x w v r

/-- The element stored for register 0 is changed by no write. -/
theorem RegFile.write_getElem_zero (x : RegFile) (w : RegIdx) (v : Word) : (x.write w v)[0] = x[0] := by
  unfold RegFile.write
  split
  · rfl
  · have : w.toNat ≠ 0 := fun e => ‹w ≠ 0#5› (BitVec.eq_of_toNat_eq e)
    rw [Vector.getElem_set_ne _ _ this]

/-! ## The guard of every step -/

theorem ifRunning_of_none {s : State} {r : Result} (h : s.fault = none) : ifRunning s r = r := by
  unfold ifRunning; rw [h]

theorem ifRunning_of_some {s : State} {r : Result} {record : FaultRecord} (h : s.fault = some record) :
    ifRunning s r = .fault (.stopped record) := by
  unfold ifRunning; rw [h]

/-- If a guarded step answers a next state, no fault was recorded and the step answers it. -/
theorem ifRunning_eq_next {s t : State} {r : Result} (h : ifRunning s r = .next t) : s.fault = none ∧ r = .next t := by
  unfold ifRunning at h
  split at h
  · cases h
  · exact ⟨‹_›, h⟩

/-! ## The common end of an instruction with a destination -/

theorem writeBack_of_none {dst : RegIdx} {v : Word} {s : State} (h : s.fault = none) :
    writeBack dst v s = .next (s.setReg dst v).advance := ifRunning_of_none h

theorem writeBack_eq_next {dst : RegIdx} {v : Word} {s t : State} (h : writeBack dst v s = .next t) :
    s.fault = none ∧ t = (s.setReg dst v).advance := by
  obtain ⟨hf, h⟩ := ifRunning_eq_next h
  exact ⟨hf, by injection h with h; exact h.symm⟩

theorem unsupportedRType_eq_next {funct : BitVec 6} {rd : RegIdx} {s t : State}
    (h : unsupportedRType funct rd s = .next t) :
    s.fault = none ∧ t = ((s.setReg rd (Config.aluDraw s.draws)).advance.log
      [s.diag .ex .unsupportedFunct funct.toNat]) := by
  obtain ⟨hf, h⟩ := ifRunning_eq_next h
  exact ⟨hf, by injection h with h; exact h.symm⟩

end Sys2Proof.Machine
end

