-- ==== Sys2Proof/Laws/PerInstr.lean ====
section
/-!
SUPPORT. The family `FieldPositions`, one lemma per constructor: each operand of an instruction stands in its own field
of the encoded word (30_encoding.md R71 to R73), beside the opcode and funct of its row (R76, R77).
-/

namespace Sys2Proof.Laws.FieldPositions

/-- Where the operands of `i` stand in its word. -/
def Statement : Instr → Prop
  | .add rd rs rt => opcodeOf (encode (.add rd rs rt)) = 0x00#6 ∧ functOf (encode (.add rd rs rt)) = 0x20#6 ∧
      rsOf (encode (.add rd rs rt)) = rs ∧ rtOf (encode (.add rd rs rt)) = rt ∧ rdOf (encode (.add rd rs rt)) = rd
  | .sub rd rs rt => opcodeOf (encode (.sub rd rs rt)) = 0x00#6 ∧ functOf (encode (.sub rd rs rt)) = 0x22#6 ∧
      rsOf (encode (.sub rd rs rt)) = rs ∧ rtOf (encode (.sub rd rs rt)) = rt ∧ rdOf (encode (.sub rd rs rt)) = rd
  | .and rd rs rt => opcodeOf (encode (.and rd rs rt)) = 0x00#6 ∧ functOf (encode (.and rd rs rt)) = 0x24#6 ∧
      rsOf (encode (.and rd rs rt)) = rs ∧ rtOf (encode (.and rd rs rt)) = rt ∧ rdOf (encode (.and rd rs rt)) = rd
  | .or rd rs rt => opcodeOf (encode (.or rd rs rt)) = 0x00#6 ∧ functOf (encode (.or rd rs rt)) = 0x25#6 ∧
      rsOf (encode (.or rd rs rt)) = rs ∧ rtOf (encode (.or rd rs rt)) = rt ∧ rdOf (encode (.or rd rs rt)) = rd
  | .slt rd rs rt => opcodeOf (encode (.slt rd rs rt)) = 0x00#6 ∧ functOf (encode (.slt rd rs rt)) = 0x2A#6 ∧
      rsOf (encode (.slt rd rs rt)) = rs ∧ rtOf (encode (.slt rd rs rt)) = rt ∧ rdOf (encode (.slt rd rs rt)) = rd
  | .nor rd rs rt => opcodeOf (encode (.nor rd rs rt)) = 0x00#6 ∧ functOf (encode (.nor rd rs rt)) = 0x27#6 ∧
      rsOf (encode (.nor rd rs rt)) = rs ∧ rtOf (encode (.nor rd rs rt)) = rt ∧ rdOf (encode (.nor rd rs rt)) = rd
  | .lw rt rs imm => opcodeOf (encode (.lw rt rs imm)) = 0x23#6 ∧ rsOf (encode (.lw rt rs imm)) = rs ∧
      rtOf (encode (.lw rt rs imm)) = rt ∧ immOf (encode (.lw rt rs imm)) = imm
  | .sw rt rs imm => opcodeOf (encode (.sw rt rs imm)) = 0x2B#6 ∧ rsOf (encode (.sw rt rs imm)) = rs ∧
      rtOf (encode (.sw rt rs imm)) = rt ∧ immOf (encode (.sw rt rs imm)) = imm
  | .beq rs rt off => opcodeOf (encode (.beq rs rt off)) = 0x04#6 ∧ rsOf (encode (.beq rs rt off)) = rs ∧
      rtOf (encode (.beq rs rt off)) = rt ∧ immOf (encode (.beq rs rt off)) = off
  | .addi rt rs imm => opcodeOf (encode (.addi rt rs imm)) = 0x08#6 ∧ rsOf (encode (.addi rt rs imm)) = rs ∧
      rtOf (encode (.addi rt rs imm)) = rt ∧ immOf (encode (.addi rt rs imm)) = imm

theorem add (rd rs rt : RegIdx) : Statement (.add rd rs rt) := by
  simp [Statement, encode, opRType, fnAdd]
theorem sub (rd rs rt : RegIdx) : Statement (.sub rd rs rt) := by
  simp [Statement, encode, opRType, fnSub]
theorem and (rd rs rt : RegIdx) : Statement (.and rd rs rt) := by
  simp [Statement, encode, opRType, fnAnd]
theorem or (rd rs rt : RegIdx) : Statement (.or rd rs rt) := by
  simp [Statement, encode, opRType, fnOr]
theorem slt (rd rs rt : RegIdx) : Statement (.slt rd rs rt) := by
  simp [Statement, encode, opRType, fnSlt]
theorem nor (rd rs rt : RegIdx) : Statement (.nor rd rs rt) := by
  simp [Statement, encode, opRType, fnNor]
theorem lw (rt rs : RegIdx) (imm : BitVec 16) : Statement (.lw rt rs imm) := by
  simp [Statement, encode, opLw]
theorem sw (rt rs : RegIdx) (imm : BitVec 16) : Statement (.sw rt rs imm) := by
  simp [Statement, encode, opSw]
theorem beq (rs rt : RegIdx) (off : BitVec 16) : Statement (.beq rs rt off) := by
  simp [Statement, encode, opBeq]
theorem addi (rt rs : RegIdx) (imm : BitVec 16) : Statement (.addi rt rs imm) := by
  simp [Statement, encode, opAddi]

end Sys2Proof.Laws.FieldPositions
end

