-- ==== Sys2Proof/Laws/Units.lean ====
section
/-!
SUPPORT. What the functional units can answer: the ALU-control unit and the ALU path, the control decoder, the
forwarding unit.
-/

namespace Sys2Proof.Machine

@[simp] theorem mux2_false {α : Type} (a b : α) : mux2 a b false = a := rfl
@[simp] theorem mux2_true {α : Type} (a b : α) : mux2 a b true = b := rfl

/-- The codes the ALU-control unit gives are codes of the ALU's table. -/
theorem aluControl_code_supported {c : Config} {op : BitVec 2} {f : BitVec 6} {code : BitVec 4}
    (h : aluControl c op f = .code code) : ∃ g, aluOperation code = some g := by
  have key : code ∈ [codeAnd, codeOr, codeAdd, codeSub, codeSlt, codeNor] := by
    unfold aluControl aluControlRType at h
    repeat' split at h
    all_goals first | (cases h; decide) | cases h
  simp only [List.mem_cons, List.not_mem_nil, or_false] at key
  rcases key with rfl | rfl | rfl | rfl | rfl | rfl <;> exact ⟨_, rfl⟩

/-- The zero flag of the ALU path is computed over its result (40_units.md R101). -/
theorem aluPath_zero (c : Config) (a b : Word) (op : BitVec 2) (f : BitVec 6) (d : Word) :
    (aluPath c a b op f d).zero = zeroFlag (aluPath c a b op f d).result := by
  unfold aluPath alu
  split
  · split <;> rfl
  · rfl

/-- A reserved opcode decodes to `Ctl0`; any other to its row. -/
theorem control_of_row {op : BitVec 6} {k : Ctl} (h : controlRow op = some k) : controlBundle op = k := by
  unfold controlBundle; rw [h]

theorem control_of_reserved {op : BitVec 6} (h : controlRow op = none) : controlBundle op = ctl0 := by
  unfold controlBundle; rw [h]

@[simp] theorem controlBundle_opRType : controlBundle opRType = ctlRType := rfl
@[simp] theorem controlBundle_opLw : controlBundle opLw = ctlLw := rfl
@[simp] theorem controlBundle_opSw : controlBundle opSw = ctlSw := rfl
@[simp] theorem controlBundle_opBeq : controlBundle opBeq = ctlBeq := rfl
@[simp] theorem controlBundle_opAddi : controlBundle opAddi = ctlAddi := rfl

/-- Every bundle the decoder makes is legal (30_encoding.md R80): one of the six of `Ctl.Legal`. -/
theorem controlBundle_cases (op : BitVec 6) :
    controlBundle op = ctlRType ∨ controlBundle op = ctlLw ∨ controlBundle op = ctlSw ∨ controlBundle op = ctlBeq ∨
      controlBundle op = ctlAddi ∨ controlBundle op = ctl0 := by
  unfold controlBundle controlRow
  split
  · repeat' split at *
    all_goals simp_all
  · simp

/-- The forwarding unit never gives 3 (41_pipeline.md R141). -/
theorem forwardSelect_ne_three (c : Config) (s : State) (r : RegIdx) : forwardSelect c s r ≠ 3#2 := by
  unfold forwardSelect
  repeat' split
  all_goals decide

/-- A forwarding multiplexer never faults on the forwarding unit's selector. -/
theorem forwardFaults_select (c : Config) (s : State) (r : RegIdx) : forwardFaults s (forwardSelect c s r) = [] := by
  unfold forwardSelect
  repeat' split
  all_goals rfl

/-- What a forwarding multiplexer gives on the forwarding unit's selector. -/
theorem forwardMux_select (c : Config) (s : State) (v : Word) (r : RegIdx) :
    (forwardMux s v (forwardSelect c s r)).getD v =
      if forwardSelect c s r = 2#2 then s.exmem.aluResult
      else if forwardSelect c s r = 1#2 then wbValue s else v := by
  have h := forwardSelect_ne_three c s r
  generalize forwardSelect c s r = f at h
  have key : f = 0#2 ∨ f = 1#2 ∨ f = 2#2 := by revert f; decide
  rcases key with rfl | rfl | rfl <;> rfl

end Sys2Proof.Machine
end

