-- ==== Sys2Proof/Laws/Step.lean ====
section
/-!
SUPPORT. What a clock step can do, said once: it commits whole or records its faults; and what the squash can change of
what the five stages wrote.
-/

namespace Sys2Proof.Machine

/-! ## A step commits or records -/

theorem clock_of_none {c : Config} {s : State} (h : s.fault = none) :
    clock c s = .next (if stepFaults c s = [] then commit c s else s.raise (stepFaults c s)) := ifRunning_of_none h

/-- If a clock step answers a next state, no fault was recorded, and either the step raised no fault and committed, or it
recorded its faults. -/
theorem clock_cases {c : Config} {s t : State} (h : clock c s = .next t) :
    s.fault = none ∧
      ((stepFaults c s = [] ∧ t = commit c s) ∨ (stepFaults c s ≠ [] ∧ t = s.raise (stepFaults c s))) := by
  obtain ⟨hf, h⟩ := ifRunning_eq_next h
  injection h with h
  refine ⟨hf, ?_⟩
  split at h
  · exact .inl ⟨‹_›, h.symm⟩
  · exact .inr ⟨‹_›, h.symm⟩

/-- A state with a record has no step (60_exceptions.md R190). -/
theorem clock_of_some {c : Config} {s : State} {record : FaultRecord} (h : s.fault = some record) :
    clock c s = .fault (.stopped record) := ifRunning_of_some h

/-! ## Runs -/

@[simp] theorem runFor_zero (c : Config) (s : State) : runFor c 0 s = s := rfl
@[simp] theorem observedFor_zero (c : Config) (s : State) : observedFor c 0 s = [] := rfl

theorem runFor_succ {c : Config} {n : Nat} {s t : State} (h : clock c s = .next t) :
    runFor c (n + 1) s = runFor c n t := by
  simp only [runFor, h]

theorem observedFor_succ {c : Config} {n : Nat} {s t : State} (h : clock c s = .next t) :
    observedFor c (n + 1) s = t :: observedFor c n t := by
  simp only [observedFor, h]

theorem clockRun_succ {c : Config} {n : Nat} {s t : State} (h : clock c s = .next t) :
    clockRun c (n + 1) s = clockRun c n t := by
  simp only [clockRun, h]

/-- The host's runner on this machine is the outcome of clock steps in the machine's configuration. -/
theorem core_run_eq_clockRun (n : Nat) (s : State) : core.run n s = clockRun Config.machine n s := by
  induction n generalizing s with
  | zero => rfl
  | succ n ih =>
    cases h : clock Config.machine s <;>
      (simp only [Host.Core.run, clockRun, show core.step s = _ from h, h, ih]; rfl)

/-- A run from a state with a record is over. -/
theorem runFor_of_some {c : Config} {n : Nat} {s : State} {record : FaultRecord} (h : s.fault = some record) :
    runFor c n s = s ∧ observedFor c n s = [] := by
  cases n with
  | zero => exact ⟨rfl, rfl⟩
  | succ n => simp [runFor, observedFor, clock_of_some h]

/-! ## The parts of the state the squash does not touch -/

/-- The squash writes the PC, IF/ID, ID/EX and EX/MEM only. -/
theorem squash_frame (c : Config) (s t : State) :
    (squash c s t).x = t.x ∧ (squash c s t).memwb = t.memwb ∧ (squash c s t).imem = t.imem ∧
      (squash c s t).dmem = t.dmem ∧ (squash c s t).cycle = t.cycle ∧ (squash c s t).diagLog = t.diagLog ∧
      (squash c s t).fault = t.fault ∧ (squash c s t).draws = t.draws := by
  unfold squash
  repeat' split
  all_goals exact ⟨rfl, rfl, rfl, rfl, rfl, rfl, rfl, rfl⟩

@[simp] theorem commit_x (c : Config) (s : State) : (commit c s).x = wbFile s := (squash_frame c s _).1
@[simp] theorem commit_memwb (c : Config) (s : State) : (commit c s).memwb = memWbNext c s := (squash_frame c s _).2.1
@[simp] theorem commit_imem (c : Config) (s : State) : (commit c s).imem = s.imem := (squash_frame c s _).2.2.1
@[simp] theorem commit_dmem (c : Config) (s : State) : (commit c s).dmem = (dmemAccess c s).memOr s.dmem :=
  (squash_frame c s _).2.2.2.1
@[simp] theorem commit_cycle (c : Config) (s : State) : (commit c s).cycle = s.cycle + 1 :=
  (squash_frame c s _).2.2.2.2.1
@[simp] theorem commit_diagLog (c : Config) (s : State) : (commit c s).diagLog = s.diagLog ++ stepDiags c s :=
  (squash_frame c s _).2.2.2.2.2.1
@[simp] theorem commit_fault (c : Config) (s : State) : (commit c s).fault = s.fault :=
  (squash_frame c s _).2.2.2.2.2.2.1
@[simp] theorem commit_draws (c : Config) (s : State) : (commit c s).draws = s.draws + 1 :=
  (squash_frame c s _).2.2.2.2.2.2.2

/-! ## The parts it does -/

theorem commit_pc (c : Config) (s : State) :
    (commit c s).pc = if pcSrc s = true ∧ 2 ≤ c.squash.val then s.exmem.target else pcNext c s := by
  unfold commit squash
  repeat' split
  all_goals rfl

theorem commit_ifid (c : Config) (s : State) :
    (commit c s).ifid =
      if pcSrc s = true ∧ (2 ≤ c.squash.val ∨ (c.squash.val = 1 ∧ stall c s = false)) then IfId.cleared
      else ifIdNext c s := by
  unfold commit squash
  by_cases h1 : pcSrc s = true <;> by_cases h2 : 2 ≤ c.squash.val <;>
    by_cases h3 : c.squash.val = 1 ∧ stall c s = false <;> simp [h1, h2, h3]

theorem commit_idex (c : Config) (s : State) :
    (commit c s).idex =
      if pcSrc s = true ∧ 2 ≤ c.squash.val then { idExNext c s with ctl := ctl0 } else idExNext c s := by
  unfold commit squash
  repeat' split
  all_goals rfl

theorem commit_exmem (c : Config) (s : State) :
    (commit c s).exmem =
      if pcSrc s = true ∧ c.squash.val = 3 then (exMemNext c s).squashed else exMemNext c s := by
  unfold commit squash
  by_cases h1 : pcSrc s = true <;> by_cases h2 : 2 ≤ c.squash.val <;> by_cases h3 : c.squash.val = 3 <;>
    simp [h1, h2, h3]
  split <;> rfl

/-- The faults of a step are those of its data access and its fetch. -/
theorem stepFaults_eq (c : Config) (s : State) :
    stepFaults c s = (dmemAccess c s).faults .mem s.exmem.aluResult ++ fetchFaults c s := by
  simp [stepFaults, forwardA, forwardB, forwardFaults_select]

end Sys2Proof.Machine
end

