-- ==== Sys2Proof/Tests/Slice0.lean ====
section
/-!
SUPPORT. The model's own tests. Expected values are the spec's: the vectors of 95_test_vectors.md, or its encodings
written out bit by bit. The last part shows, for every statement that has hypotheses, values that meet them.
-/

namespace Sys2Proof.Tests

open Sys2Proof.Machine

/-! ## Helpers -/

/-- The next state of an outcome. -/
def nextOf : Result → Option State
  | .next t => some t
  | _ => none

/-- A configuration with forwarding and hazard detection on, little-endian memories and squash depth `k`. -/
def cfg (k : Fin 4) : Config :=
  { fwdEn := true, hduEn := true, norEn := false, squash := k, imemEndian := .little, dmemEndian := .little }

/-- Reset with three registers set. -/
def regs (a b d : Word) : State := ((State.reset.setReg 1 a).setReg 2 b).setReg 4 d

/-- ID/EX as ID leaves it for a word whose register values are `a` and `b`. -/
def latched (w : Word) (pc4 a b : Word) : IdEx :=
  { ctl := controlBundle (opcodeOf w), pc4 := pc4, rd1 := a, rd2 := b, imm := sext32 (immOf w), rs := rsOf w,
    rt := rtOf w, rd := rdOf w, funct := functOf w }

/-- EX/MEM of a taken `beq` to `target`. -/
def takenBeq (target : Word) : ExMem := { ExMem.cleared with branch := true, zero := true, target := target }

/-- EX/MEM of a load at `a` into register `r`. -/
def loadInMem (a : Word) (r : RegIdx) : ExMem :=
  { ExMem.cleared with memRead := true, regWrite := true, memToReg := true, aluResult := a, writeReg := r }

/-! ## Well-formedness: each check refuses an ill-formed term -/

theorem test_wf_register_32_refused : rOperands .add 32 0 0 = none ∧ rOperands .add 0 32 0 = none ∧
    rOperands .add 0 0 32 = none ∧ iOperands .lw 32 0 0 = none ∧ iOperands .lw 0 32 0 = none := by decide

theorem test_wf_immediate_out_of_range_refused :
    iOperands .addi 1 0 32768 = none ∧ iOperands .addi 1 0 (-32769) = none := by decide

theorem test_wf_bounds_accepted : rOperands .add 31 31 31 = some (.add 31 31 31) ∧
    iOperands .addi 1 0 (-32768) = some (.addi 1 0 0x8000) ∧ iOperands .beq 1 1 32767 = some (.beq 1 1 0x7FFF) := by
  decide

theorem test_wf_instr : (Instr.lw 3 29 0xFFFC).wellFormed = true := by decide

theorem test_wf_memory_refused : Memory.wf [(4, 1#8), (0, 1#8)] = false ∧ Memory.wf [(4, 1#8), (4, 2#8)] = false ∧
    Memory.wf [(4, 0#8)] = false ∧ Memory.wf [(2 ^ 32, 1#8)] = false := by decide

theorem test_wf_memory_accepted : Memory.wf [(0, 1#8), (4, 2#8), (2 ^ 32 - 1, 3#8)] = true := by decide

/-! ## Decoding: words written out field by field from 30_encoding.md R72, R73, R76, R77 -/

/-- `add $3, $1, $2`: 000000 00001 00010 00011 00000 100000. -/
theorem test_decode_add : decode 0b00000000001000100001100000100000#32 = .instr (.add 3 1 2) := by decide
/-- `sub $3, $1, $2`, shamt 11111 (ignored, R75). -/
theorem test_decode_sub : decode 0b00000000001000100001111111100010#32 = .instr (.sub 3 1 2) := by decide
/-- `and $31, $1, $2`. -/
theorem test_decode_and : decode 0b00000000001000101111100000100100#32 = .instr (.and 31 1 2) := by decide
/-- `or $3, $31, $2`. -/
theorem test_decode_or : decode 0b00000011111000100001100000100101#32 = .instr (.or 3 31 2) := by decide
/-- `slt $3, $1, $31`. -/
theorem test_decode_slt : decode 0b00000000001111110001100000101010#32 = .instr (.slt 3 1 31) := by decide
/-- `nor $3, $1, $2`. -/
theorem test_decode_nor : decode 0b00000000001000100001100000100111#32 = .instr (.nor 3 1 2) := by decide
/-- `lw $3, -4($29)`: 100011 11101 00011 1111111111111100 (0x8FA3FFFC, 95_test_vectors.md 2.3). -/
theorem test_decode_lw : decode 0b10001111101000111111111111111100#32 = .instr (.lw 3 29 0xFFFC) := by decide
/-- `sw $3, 8($29)`: 101011 11101 00011 0000000000001000 (0xAFA30008). -/
theorem test_decode_sw : decode 0b10101111101000110000000000001000#32 = .instr (.sw 3 29 8) := by decide
/-- `beq $1, $2, -1`: 000100 00001 00010 1111111111111111 (0x1022FFFF). -/
theorem test_decode_beq : decode 0b00010000001000101111111111111111#32 = .instr (.beq 1 2 0xFFFF) := by decide
/-- `addi $2, $1, 0x7FFF`: 001000 00001 00010 0111111111111111 (0x20227FFF). -/
theorem test_decode_addi : decode 0b00100000001000100111111111111111#32 = .instr (.addi 2 1 0x7FFF) := by decide
/-- Reserved opcodes and unsupported functs are rejected by name. -/
theorem test_decode_rejects : decode 0x08000000#32 = .reservedOpcode 0x02 ∧ decode 0xFFFFFFFF#32 = .reservedOpcode 0x3F ∧
    decode 0x00000000#32 = .unsupportedFunct 0 := by decide
/-- The table's numbering, and both byte orders of the same word. -/
theorem test_decode_table_word : decodeTableWord 32 0x8C410000 = some (.lw 1 2 0) ∧ decodeTableWord 32 0 = none ∧
    decodeBytes .little [0x00#8, 0x00#8, 0x41#8, 0x8C#8, 7#8] = some (.instr (.lw 1 2 0), [7#8]) ∧
    decodeBytes .big [0x8C#8, 0x41#8, 0x00#8, 0x00#8] = some (.instr (.lw 1 2 0), []) ∧
    decodeBytes .big [0x8C#8, 0x41#8, 0x00#8] = none := by decide

/-! ## The architectural effects (95_test_vectors.md 2.4 to 2.7) -/

theorem test_add_wraps : (nextOf (exec (.add 3 1 2) (regs 0x7FFFFFFF 1 0))).map (fun t => (t.reg 3, t.pc)) =
    some (0x80000000#32, 4#32) := by decide
theorem test_add_register_zero : (nextOf (exec (.add 0 1 2) (regs 5 7 0))).map (fun t => (t.reg 0, t.reg 3)) =
    some (0#32, 0#32) := by decide
theorem test_sub : (nextOf (exec (.sub 3 1 2) (regs 5 7 0))).map (·.reg 3) = some 0xFFFFFFFE#32 := by decide
theorem test_and : (nextOf (exec (.and 3 1 2) (regs 0xF0F0F0F0 0x0FF00FF0 0))).map (·.reg 3) = some 0x00F000F0#32 := by
  decide
theorem test_or : (nextOf (exec (.or 3 1 2) (regs 0xF0F0F0F0 0x0FF00FF0 0))).map (·.reg 3) = some 0xFFF0FFF0#32 := by
  decide
theorem test_slt_signed : (nextOf (exec (.slt 3 1 2) (regs 0x80000000 1 0))).map (·.reg 3) = some 1#32 := by decide
theorem test_slt_not_unsigned : (nextOf (exec (.slt 3 1 2) (regs 0x7FFFFFFF 0xFFFFFFFF 0))).map (·.reg 3) = some 0#32 := by
  decide
theorem test_nor : (nextOf (norIn { cfg 0 with norEn := true } 3 1 2 (regs 0 0 0))).map (·.reg 3) =
    some 0xFFFFFFFF#32 := by decide
theorem test_nor_unsupported : (nextOf (norIn (cfg 0) 3 1 2 (regs 0 0 0))).map (fun t => t.diagLog.map (·.detail)) =
    some [0x27] := by decide
theorem test_lw_address_wraps : (nextOf (loadWord .little 1 2 8
    { regs 0 0xFFFFFFFC 0 with dmem := [(4, 5#8)] })).map (·.reg 1) = some 5#32 := by decide
theorem test_lw_misaligned : (nextOf (loadWord .little 1 0 1 State.reset)).map (fun t => (t.pc, t.fault)) =
    some (0#32, some { cycle := 1, faults := [⟨.misalignedAccess, .mem, 1#32⟩] }) := by decide
theorem test_sw_little : (nextOf (storeWord .little 1 2 4 (regs 0x11223344 0x100 0))).map (·.dmem) =
    some [(0x104, 0x44#8), (0x105, 0x33#8), (0x106, 0x22#8), (0x107, 0x11#8)] := by decide
theorem test_sw_big : (nextOf (storeWord .big 1 2 4 (regs 0x11223344 0x100 0))).map (·.dmem) =
    some [(0x104, 0x11#8), (0x105, 0x22#8), (0x106, 0x33#8), (0x107, 0x44#8)] := by decide
theorem test_beq_target_wraps : (nextOf (exec (.beq 0 0 0x8000) { State.reset with pc := 0x100#32 })).map (·.pc) =
    some 0xFFFE0104#32 := by decide
theorem test_beq_not_taken : (nextOf (exec (.beq 1 2 5) (regs 0x80000000 0 0))).map (·.pc) = some 4#32 := by decide
theorem test_addi_sign_extends : (nextOf (exec (.addi 1 0 0xFFFF) State.reset)).map (·.reg 1) =
    some 0xFFFFFFFF#32 := by decide

/-! ## Units (95_test_vectors.md 2.1, 2.2, 2.8, 2.9) -/

theorem test_shift_drops_top : shiftLeft2 0x40000001#32 = 4#32 ∧ shiftLeft2 0xFFFF8000#32 = 0xFFFE0000#32 := by decide
theorem test_alu_slt_zero : alu 0b0111#4 0xFFFFFFFE#32 0xFFFFFFFF#32 0#32 = ⟨1#32, false, none⟩ ∧
    alu 0b0111#4 0x7FFFFFFF#32 0x80000000#32 0#32 = ⟨0#32, true, none⟩ := by decide
theorem test_alu_unsupported : alu 0b0011#4 1#32 1#32 9#32 = ⟨9#32, false, some (.unsupportedALUCode, 3)⟩ := by decide
theorem test_forward_nearer_wins :
    let s := { State.reset with
      idex := { IdEx.cleared with rs := 4, rt := 3 }
      exmem := { ExMem.cleared with regWrite := true, writeReg := 3 }
      memwb := { MemWb.cleared with regWrite := true, writeReg := 4 } }
    forwardA (cfg 3) s = 1#2 ∧ forwardB (cfg 3) s = 2#2 ∧ forwardA { cfg 3 with fwdEn := false } s = 0#2 := by decide
theorem test_hazard_register_zero_not_excluded :
    stall (cfg 3) { State.reset with
      idex := { IdEx.cleared with ctl := ctlLw }, ifid := { IfId.cleared with instr := nopWord } } = true := by decide

/-! ## One clock step: rows of the traces of 95_test_vectors.md part 3 -/

/-- P2, step 3: the load-use bubble holds the PC and IF/ID. -/
def loadUse : State :=
  { regs 0x11 0x100 3 with
    pc := 8#32, ifid := ⟨0x00241820#32, 8#32⟩, idex := latched 0x8C410000#32 4#32 0x100#32 0x11#32 }
theorem test_clock_load_use : (nextOf (clock (cfg 3) loadUse)).map (fun t => (t.pc, t.ifid.instr, t.idex.ctl, t.exmem.aluResult)) =
    some (8#32, 0x00241820#32, ctl0, 0x100#32) := by decide

/-- P5, step 4: a taken `beq` in MEM, for each squash depth. -/
def branchInMem : State :=
  { State.reset with
    pc := 12#32, ifid := ⟨0x20060001#32, 12#32⟩, idex := latched 0x20050001#32 8#32 0#32 0#32, exmem := takenBeq 12#32 }
theorem test_clock_squash_depths : ∀ k : Fin 4,
    (nextOf (clock (cfg k) branchInMem)).map (fun t => (t.pc, t.idex.ctl, t.exmem.regWrite)) =
      some (12#32, if 2 ≤ k.val then ctl0 else ctlAddi, decide (k.val < 3)) := by decide

/-- P6, step 4: stall and redirect together. -/
def stallAndRedirect : State :=
  { State.reset with
    pc := 12#32, ifid := ⟨0x00A53020#32, 12#32⟩, idex := latched 0x8C050000#32 8#32 0#32 0#32, exmem := takenBeq 0x14#32 }
theorem test_clock_stall_and_redirect : ∀ k : Fin 4,
    (nextOf (clock (cfg k) stallAndRedirect)).map (fun t => (t.pc, t.ifid.instr, t.exmem.memRead)) =
      some (if 2 ≤ k.val then (0x14#32, 0#32, decide (k.val < 3)) else (12#32, 0x00A53020#32, true)) := by decide

/-- P9, step 5: the misaligned load in MEM records its fault; the write waiting in MEM/WB is not made. -/
def misalignedInMem : State :=
  { State.reset with
    pc := 0x10#32, cycle := 4, exmem := loadInMem 1#32 2,
    memwb := { regWrite := true, memToReg := false, readData := 0#32, aluResult := 7#32, writeReg := 1 } }
theorem test_clock_fault_commits_nothing : nextOf (clock (cfg 3) misalignedInMem) =
    some { misalignedInMem with fault := some { cycle := 5, faults := [⟨.misalignedAccess, .mem, 1#32⟩] } } := by decide

/-- P8, step 2: EX's diagnostic comes before ID's. -/
theorem test_clock_diagnostics_order : (nextOf (clock (cfg 3)
      { State.reset with cycle := 1, idex := latched 0#32 0#32 0#32 0#32, ifid := ⟨0x08000000#32, 4#32⟩ })).map (·.diagLog) =
    some [⟨2, .ex, .unsupportedFunct, 0⟩, ⟨2, .id, .unknownOpcode, 2⟩] := by decide

/-- WB writes before ID reads (41_pipeline.md R134), and register 0 is never written. -/
theorem test_clock_wb_before_id : (nextOf (clock (cfg 3)
      { State.reset with
        ifid := ⟨0x00221820#32, 4#32⟩
        memwb := { regWrite := true, memToReg := true, readData := 40#32, aluResult := 9#32, writeReg := 1 } })).map
        (fun t => (t.reg 1, t.idex.rd1)) = some (40#32, 40#32) := by decide

/-! ## Loader (95_test_vectors.md 2.11) -/

/-- The launch inputs with one memory file. -/
def withImemFile (text : List Char) : LaunchInputs :=
  { initPc := 0#32, regInit := Vector.replicate 32 0#32, imemInit := [], dmemInit := [], nCycles := 0, regFile := [],
    imemFile := text, dmemFile := [] }

/-- The `IMEM` a construction gives, or none where it is refused. -/
def imemOf (r : Except LoadError State) : Option Memory :=
  match r with
  | .ok s => some s.imem
  | .error _ => none

theorem test_load_word : imemOf (construct (cfg 0)
    (withImemFile ['0', 'x', '1', '0', ' ', 'D', 'E', 'A', 'D', 'B', 'E', 'E', 'F'])) =
    some [(0x10, 0xEF#8), (0x11, 0xBE#8), (0x12, 0xAD#8), (0x13, 0xDE#8)] := by decide
theorem test_load_blank_line_ends : imemOf (construct (cfg 0)
    (withImemFile ['0', ' ', '1', '\n', '\n', '4', ' ', '2'])) = some [(0, 1#8)] := by decide
theorem test_load_nine_digits_malformed : imemOf (construct (cfg 0)
    (withImemFile ['0', ' ', '1', '2', '3', '4', '5', '6', '7', '8', '9'])) = some [] := by decide
theorem test_load_misaligned_refused : imemOf (construct (cfg 0) (withImemFile ['2', ' ', '1'])) = none := by decide
theorem test_load_register_32_refused : imemOf (construct (cfg 0)
    { withImemFile [] with regFile := ['3', '2', ' ', '1'] }) = none := by decide
theorem test_load_empty_is_reset : (construct (cfg 0) (withImemFile [])).toOption = some State.reset := by decide

/-- A word placed for the first step after reset decodes, and that step runs without a fault: it fetches it. -/
theorem test_step_fetches_placed_word : decodeTableWord 32 0x20010005 = some (.addi 1 0 5) ∧
    (nextOf (step (State.reset.withFetchWord 32 0x20010005))).map (fun t => (t.pc, t.ifid.pc4, t.fault, t.cycle)) =
      some (4#32, 4#32, none, 1) := by decide

/-- The very next step after a word is placed at reset has fetched that word, in whatever configuration the machine has. -/
theorem test_placed_word_is_fetched : (nextOf (step (State.reset.withFetchWord 32 0x20010005))).map (·.ifid) =
    some { instr := 0x20010005#32, pc4 := 4#32 } := by
  have key : ∀ c : Config, (nextOf (clock c { State.reset with
      imem := Memory.writeWord c.imemEndian [] 0#32 0x20010005#32 })).map (·.ifid) =
      some { instr := 0x20010005#32, pc4 := 4#32 } := by
    rintro ⟨f, h, n, k, e, d⟩
    cases e <;> cases d <;> revert f h n k <;> decide
  exact key Config.machine

/-! ## Every statement with hypotheses is met by something -/

/-- The memory that holds `addi $1, $0, 5` at 0, little-endian (0x20010005). -/
def addiAtZero : Memory := [(0, 5#8), (2, 1#8), (3, 0x20#8)]

theorem witness_EveryWordIsReadForWhatItIs : decode 0x00221FE0#32 = .instr (.add 3 1 2) ∧
    decode 0xAFA30008#32 = .instr (.sw 3 29 8) ∧ functOf 0x0000003F#32 ∉ [0x20#6, 0x22#6, 0x24#6, 0x25#6, 0x2A#6, 0x27#6] ∧
    opcodeOf 0xFC000000#32 ∉ [0x00#6, 0x23#6, 0x2B#6, 0x04#6, 0x08#6] := by decide

theorem witness_UnsupportedAluInputDraws :
    0b1111#4 ∉ [0b0000#4, 0b0001#4, 0b0010#4, 0b0110#4, 0b0111#4, 0b1100#4] ∧
    (0x27#6 ∉ [0x20#6, 0x22#6, 0x24#6, 0x25#6, 0x2A#6] ∧ (0x27#6 = 0x27#6 → (cfg 0).norEn = false)) ∧
    (0x00#6 ∉ [0x20#6, 0x22#6, 0x24#6, 0x25#6, 0x2A#6] ∧ (0x00#6 = 0x27#6 → (cfg 0).norEn = false)) := by decide

theorem witness_SignExtensionAndShift : (0x7FFF#16).getLsbD 15 = false ∧ (0x8000#16).getLsbD 15 = true := by decide

theorem witness_ThreeWayMultiplexer : ∃ e, e ∈ stepFaults (cfg 3) misalignedInMem := ⟨⟨.misalignedAccess, .mem, 1#32⟩, by decide⟩

theorem witness_MemoryAccessContract : (0xFFFFFFFD#32).toNat % 4 ≠ 0 ∧ (0xFFFFFFFC#32).toNat % 4 = 0 := by decide

theorem witness_WordWriteSetsFourBytes : Memory.wf [(0xFFFFFFFF, 1#8)] = true ∧ (0xFFFFFFFC#32).toNat % 4 = 0 ∧
    (1#32).toNat % 4 ≠ 0 := by decide

theorem witness_WordWriteReadRoundTrip : Memory.wf [(0xFFFFFFFF, 1#8)] = true ∧ aligned 0xFFFFFFFC#32 = true := by decide

/-- For `RTypeResults`, `NorResult`, `AddiResult` and `BeqResult`. -/
theorem witness_running : (regs 5 7 0).fault = none := by decide

theorem witness_LwResult : (regs 0 0xFFFFFFFC 0).fault = none ∧
    ((regs 0 0xFFFFFFFC 0).reg 2 + (8#16).signExtend 32).toNat % 4 = 0 := by decide

/-- Also for `StoreThenLoadReturnsTheWord`. -/
theorem witness_SwResult : (regs 0 0xFFFFFFFC 0).fault = none ∧ (regs 0 0xFFFFFFFC 0).dmem.wf = true ∧
    ((regs 0 0xFFFFFFFC 0).reg 2 + (0#16).signExtend 32).toNat % 4 = 0 := by decide

theorem witness_MisalignedLoadAndStoreFault : (regs 0 0xFFFFFFFC 0).fault = none ∧
    ((regs 0 0xFFFFFFFC 0).reg 2 + (3#16).signExtend 32).toNat % 4 ≠ 0 := by decide

/-- The reset state with a word in `IMEM` at the PC, in the machine's own byte order. -/
theorem codeWord_withFetchWord (w : Nat) :
    ∀ e, Memory.readWord e (Memory.writeWord e [] 0#32 (BitVec.ofNat 32 w)) 0#32 = BitVec.ofNat 32 w := by
  intro e
  have h0 : Memory.wf [] = true := rfl
  have h1 := Memory.wf_write (a := 0) (b := byteOfWord e (BitVec.ofNat 32 w) 0) h0 (by decide)
  have h2 := Memory.wf_write (a := 1) (b := byteOfWord e (BitVec.ofNat 32 w) 1) h1 (by decide)
  have h3 := Memory.wf_write (a := 2) (b := byteOfWord e (BitVec.ofNat 32 w) 2) h2 (by decide)
  have z : (0#32).toNat = 0 := rfl
  simp only [Memory.readWord, Memory.writeWord, z, Nat.zero_add]
  rw [Memory.read_write_ne (by decide), Memory.read_write_ne (by decide), Memory.read_write_ne (by decide),
    Memory.read_write_self h0, Memory.read_write_ne (by decide), Memory.read_write_ne (by decide),
    Memory.read_write_self h1, Memory.read_write_ne (by decide), Memory.read_write_self h2, Memory.read_write_self h3]
  exact wordOfBytes_byteOfWord e _

theorem witness_ReferenceStepRunsTheDecodedInstruction :
    memRead Config.machine.imemEndian (State.reset.withFetchWord 32 0x20010005).imem
      (State.reset.withFetchWord 32 0x20010005).pc = some 0x20010005#32 ∧
    decode 0x20010005#32 = .instr (.addi 1 0 5) :=
  ⟨memRead_eq_some.mpr ⟨by decide, codeWord_withFetchWord 0x20010005 _⟩, by decide⟩

theorem witness_ReservedOpcodeIsNoOp : State.reset.fault = none ∧
    opcodeOf 0x08000000#32 ∉ [0x00#6, 0x23#6, 0x2B#6, 0x04#6, 0x08#6] := by decide

theorem witness_StepsExactlyWhileNoFault : State.reset.fault = none ∧
    (State.reset.raise []).fault = some { cycle := 1, faults := [] } := by decide

/-- `StepFetchesTheWordAtThePc`, both clauses, with a load in MEM at the highest aligned address. -/
theorem witness_StepFetchesTheWordAtThePc :
    let s := { State.reset with exmem := loadInMem 0xFFFFFFFC#32 1 }
    s.fault = none ∧ stall (cfg 3) s = false ∧ pcSrc s = false ∧ aligned s.pc = true ∧
      s.exmem.memRead = true ∧ s.exmem.memWrite = false ∧ aligned s.exmem.aluResult = true ∧
      ∃ t, clock (cfg 3) s = .next t ∧ t.fault = none :=
  ⟨rfl, by decide, by decide, by decide, rfl, rfl, by decide, _, rfl, by decide⟩

/-- `WriteBackStage`: a step in which EX takes the MEM/WB value for both operands, and register 31 is written. -/
theorem witness_WriteBackStage :
    let s := { State.reset with
      idex := { IdEx.cleared with rs := 31, rt := 31 }
      memwb := { MemWb.cleared with regWrite := true, writeReg := 31, aluResult := 6#32 } }
    ∃ t, clock (cfg 3) s = .next t ∧ t.fault = none ∧ forwardA (cfg 3) s = 1#2 ∧ forwardB (cfg 3) s = 1#2 ∧
      t.reg 31 = 6#32 := ⟨_, rfl, by decide, by decide, by decide, by decide⟩

/-- For `MemoryStage` (a load in MEM), `DecodeStage`, `DiagnosticsOfAStep`, `CycleCounter` and
`BubbleDoesNothing`'s last clause. -/
theorem witness_step_with_load : ∃ t, clock (cfg 3) { State.reset with exmem := loadInMem 4#32 1 } = .next t ∧
    t.fault = none ∧ { State.reset with exmem := loadInMem 4#32 1 }.exmem.memRead = true := ⟨_, rfl, by decide, by decide⟩

/-- `ExecuteStage`, with a taken `beq` in MEM at every depth below 3, and with none at depth 3. -/
theorem witness_ExecuteStage :
    (∀ k : Fin 3, ∃ t, clock (cfg k.castSucc) branchInMem = .next t ∧ t.fault = none ∧
      (pcSrc branchInMem = true → (cfg k.castSucc).squash.val < 3)) ∧
    ∃ t, clock (cfg 3) loadUse = .next t ∧ t.fault = none ∧ (pcSrc loadUse = true → (cfg 3).squash.val < 3) := by
  refine ⟨fun k => ⟨_, rfl, ?_, fun _ => k.isLt⟩, _, rfl, by decide, by decide⟩
  revert k; decide

/-- `LoadUseStall`: without and with a redirect. -/
theorem witness_LoadUseStall :
    (∃ t, clock (cfg 3) loadUse = .next t ∧ stall (cfg 3) loadUse = true ∧ pcSrc loadUse = false ∧ t.fault = none) ∧
    ∃ t, clock (cfg 0) stallAndRedirect = .next t ∧ stall (cfg 0) stallAndRedirect = true ∧ t.fault = none :=
  ⟨⟨_, rfl, by decide, by decide, by decide⟩, _, rfl, by decide, by decide⟩

/-- `PcMultiplexers`: a stall with `pcSrc = 1` at depth 1, and a step with `pcSrc = 0` at depth 3. -/
theorem witness_PcMultiplexers :
    (∃ t, clock (cfg 1) stallAndRedirect = .next t ∧ t.fault = none ∧
      (pcSrc stallAndRedirect = true → (cfg 1).squash.val < 2)) ∧
    ∃ t, clock (cfg 3) loadUse = .next t ∧ t.fault = none ∧ (pcSrc loadUse = true → (cfg 3).squash.val < 2) :=
  ⟨⟨_, rfl, by decide, by decide⟩, _, rfl, by decide, by decide⟩

theorem witness_TakenBranchSquashes : ∀ k : Fin 4, ∃ t, clock (cfg k) branchInMem = .next t ∧ t.fault = none ∧
    pcSrc branchInMem = true ∧ stall (cfg k) branchInMem = false := by
  intro k
  refine ⟨_, rfl, ?_, by decide, ?_⟩ <;> revert k <;> decide

theorem witness_StallAndRedirectTogether : ∀ k : Fin 4, stallAndRedirect.fault = none ∧ stallAndRedirect.idex.ctl.Legal ∧
    stallAndRedirect.exmem.Legal ∧ pcSrc stallAndRedirect = true ∧ stall (cfg k) stallAndRedirect = true := by
  intro k
  refine ⟨rfl, .inr (.inl rfl), ⟨ctlBeq, .inr (.inr (.inr (.inl rfl))), ?_⟩, by decide, ?_⟩
  · decide
  · revert k; decide

/-- `BubbleDoesNothing`: the reset state meets the premises of every clause. -/
theorem witness_BubbleDoesNothing : ∃ t, clock (cfg 3) State.reset = .next t ∧ t.fault = none ∧
    State.reset.idex.ctl = ctl0 ∧ State.reset.exmem.branch = false ∧ State.reset.exmem.memRead = false ∧
    State.reset.exmem.memWrite = false ∧ State.reset.exmem.regWrite = false ∧ State.reset.memwb.regWrite = false :=
  ⟨_, rfl, by decide⟩

theorem witness_FaultingStepCommitsNothing : misalignedInMem.fault = none ∧ stepFaults (cfg 3) misalignedInMem ≠ [] := by
  decide

theorem witness_CycleCounter : ∃ t, exec (.add 3 1 2) (regs 5 7 0) = .next t := ⟨_, rfl⟩

/-- `InstructionMemoryIsNeverWritten`. -/
theorem witness_step_from_reset : (∃ t, step State.reset = .next t) ∧ ∃ t, exec (.addi 1 0 5) State.reset = .next t :=
  ⟨⟨_, rfl⟩, _, rfl⟩

/-- A state with every latch as reset leaves it. -/
theorem launch_empty (pc : Word) (x : RegFile) (im dm : Memory) : (State.launch pc x im dm).EmptyPipeline :=
  ⟨rfl, rfl, rfl, rfl, rfl⟩

theorem witness_BranchTargetsStayAligned : aligned 0xFFFFFFFC#32 = true ∧
    (State.launch 2#32 (Vector.replicate 32 0#32) [] []).EmptyPipeline ∧
    aligned (State.launch 2#32 (Vector.replicate 32 0#32) [] []).pc = false :=
  ⟨by decide, launch_empty .., by decide⟩

/-- A launch state at address 8, every register but 0 at 7, meets the invariant. -/
theorem launch_inv : (State.launch 8#32 (Vector.replicate 32 7#32) [] []).Inv where
  imem_wf := rfl
  dmem_wf := rfl
  reg0 := by decide
  pc_aligned := by decide
  ifid_aligned := by decide
  idex_aligned := by decide
  target_aligned := by decide
  idex_legal := by decide
  exmem_legal := ⟨ctl0, by decide, rfl, rfl, rfl, rfl, rfl⟩
  memwb_legal := ⟨ctl0, by decide, rfl, rfl⟩
  log_reachable := by intro d hd; cases hd
  fault_reachable := by intro r hr; cases hr

theorem witness_StepKeepsTheInvariant : ∃ s t : State, s.Inv ∧ step s = .next t := ⟨_, _, launch_inv, rfl⟩

/-- `OnlyMisalignedDataAccessFaults`: a state that meets the invariant and whose step faults. -/
theorem witness_OnlyMisalignedDataAccessFaults : ∃ s t : State, s.Inv ∧ s.fault = none ∧ clock (cfg 3) s = .next t ∧
    t.fault = some { cycle := 1, faults := [⟨.misalignedAccess, .mem, 1#32⟩] } := by
  refine ⟨{ State.launch 8#32 (Vector.replicate 32 7#32) [] [] with exmem := loadInMem 1#32 2 }, _, ?_, rfl, rfl, by decide⟩
  exact { launch_inv with
    target_aligned := by decide
    exmem_legal := ⟨ctlLw, .inr (.inl rfl), rfl, rfl, rfl, rfl, rfl⟩ }

/-- `nop` (0x00000020) at 4, 8 and 12, little-endian. -/
def threeNops : Memory := [(4, 0x20#8), (8, 0x20#8), (12, 0x20#8)]

/-- `addi $1, $0, 5` (0x20010005) at 0, then three nops, in either byte order. -/
def addiThenNops : Endian → Memory
  | .little => addiAtZero ++ threeNops
  | .big => [(0, 0x20#8), (1, 1#8), (3, 5#8), (7, 0x20#8), (11, 0x20#8), (15, 0x20#8)]

/-- `beq $1, $1, 2` (0x10210002), then three nops. -/
def takenThenNops : Memory := [(0, 2#8), (2, 0x21#8), (3, 0x10#8)] ++ threeNops

/-- `beq $1, $0, 2` (0x10200002), then three nops. -/
def untakenThenNops : Memory := [(0, 2#8), (2, 0x20#8), (3, 0x10#8)] ++ threeNops

/-- 0x00221800 (funct 0), then three nops. -/
def unsupportedThenNops : Memory := [(1, 0x18#8), (2, 0x22#8)] ++ threeNops

/-- A property of the three offsets, one by one. -/
theorem forall_offsets {P : Word → Prop} (h4 : P 4#32) (h8 : P 8#32) (h12 : P 12#32) :
    ∀ n ∈ [4#32, 8#32, 12#32], P n := by simp [h4, h8, h12]

/-- `addi $1, $0, 5` alone, launched in the machine's own configuration. -/
def loneAddi : State := State.launch 0#32 (Vector.replicate 32 0#32) (addiThenNops Config.machine.imemEndian) []

theorem witness_LoneInstructionRetiresInFiveSteps : ∃ t : State, loneAddi.EmptyPipeline ∧ aligned loneAddi.pc = true ∧
    decode (codeWord Config.machine loneAddi loneAddi.pc) = .instr (.addi 1 0 5) ∧
    (∀ n ∈ [4#32, 8#32, 12#32], codeWord Config.machine loneAddi (loneAddi.pc + n) = nopWord) ∧
    exec (.addi 1 0 5) loneAddi = .next t ∧ t.fault = none := by
  have key : ∀ e, decode ((addiThenNops e).readWord e 0#32) = .instr (.addi 1 0 5) ∧
      ∀ n ∈ [4#32, 8#32, 12#32], (addiThenNops e).readWord e (0#32 + n) = nopWord := by
    intro e
    cases e <;> exact ⟨by decide, forall_offsets (by decide) (by decide) (by decide)⟩
  exact ⟨_, launch_empty .., rfl, (key _).1, (key _).2, rfl, rfl⟩

/-- A taken `beq $1, $1, 2` alone, and one not taken. -/
theorem witness_LoneBranchRedirectsInItsFourthStep :
    (State.launch 0#32 (Vector.replicate 32 3#32) takenThenNops []).EmptyPipeline ∧
    aligned (State.launch 0#32 (Vector.replicate 32 3#32) takenThenNops []).pc = true ∧
    decode (takenThenNops.readWord .little 0#32) = .instr (.beq 1 1 2) ∧
    decode (untakenThenNops.readWord .little 0#32) = .instr (.beq 1 0 2) ∧
    (∀ n ∈ [4#32, 8#32, 12#32], takenThenNops.readWord .little (0#32 + n) = nopWord) ∧
    ∀ n ∈ [4#32, 8#32, 12#32], untakenThenNops.readWord .little (0#32 + n) = nopWord :=
  ⟨launch_empty .., by decide, by decide, by decide, forall_offsets (by decide) (by decide) (by decide),
    forall_offsets (by decide) (by decide) (by decide)⟩

theorem witness_LoneUnsupportedFunctWritesADraw :
    (State.launch 0#32 (Vector.replicate 32 3#32) unsupportedThenNops []).EmptyPipeline ∧
    aligned (State.launch 0#32 (Vector.replicate 32 3#32) unsupportedThenNops []).pc = true ∧
    unsupportedThenNops.readWord .little 0#32 = 0x00221800#32 ∧ opcodeOf 0x00221800#32 = opRType ∧
    functOf 0x00221800#32 ∉ [0x20#6, 0x22#6, 0x24#6, 0x25#6, 0x2A#6, 0x27#6] ∧
    ∀ n ∈ [4#32, 8#32, 12#32], unsupportedThenNops.readWord .little (0#32 + n) = nopWord :=
  ⟨launch_empty .., by decide, by decide, by decide, by decide, forall_offsets (by decide) (by decide) (by decide)⟩

/-- Away from its one word `addiAtZero` reads as zero. -/
theorem addiAtZero_read (k : Nat) (h : 4 ≤ k) : addiAtZero.read k = 0#8 := by
  simp only [addiAtZero, Memory.read, unlistedByte]
  rw [if_neg (by omega), if_neg (by omega), if_neg (by omega)]

/-- `PipelineCommitsTheReferenceSequence`: a program of one `addi`, every other word zero. -/
theorem witness_PipelineCommitsTheReferenceSequence :
    (cfg 3).fwdEn = true ∧ (cfg 3).hduEn = true ∧ (cfg 3).squash.val = 3 ∧
    (State.launch 0#32 (Vector.replicate 32 0#32) addiAtZero []).EmptyPipeline ∧
    ∀ a, aligned a = true →
      Determined (cfg 3) (codeWord (cfg 3) (State.launch 0#32 (Vector.replicate 32 0#32) addiAtZero []) a) := by
  refine ⟨rfl, rfl, rfl, launch_empty .., fun a ha => ?_⟩
  by_cases h0 : a.toNat = 0
  · have : a = 0#32 := BitVec.eq_of_toNat_eq h0
    subst this
    exact fun h => absurd h (by decide)
  · have h4 : 4 ≤ a.toNat := by have := (aligned_iff a).mp ha; omega
    have hz : codeWord (cfg 3) (State.launch 0#32 (Vector.replicate 32 0#32) addiAtZero []) a = 0#32 := by
      simp only [codeWord, State.launch_imem, Memory.readWord]
      rw [addiAtZero_read _ h4, addiAtZero_read _ (by omega), addiAtZero_read _ (by omega), addiAtZero_read _ (by omega)]
      rfl
    rw [hz]
    exact fun _ h => absurd h (by decide)

/-- The word 1 at 0, in either byte order. -/
theorem sameWords_one : SameWords .little [(0, 1#8)] .big [(3, 1#8)] := by
  intro a ha
  by_cases h0 : a.toNat = 0
  · have : a = 0#32 := BitVec.eq_of_toNat_eq h0
    subst this
    decide
  · have h4 : 4 ≤ a.toNat := by have := (aligned_iff a).mp ha; omega
    have l : ∀ k, 4 ≤ k → Memory.read [(0, 1#8)] k = 0#8 := by
      intro k hk; simp only [Memory.read, unlistedByte]; rw [if_neg (by omega)]
    have b : ∀ k, 4 ≤ k → Memory.read [(3, 1#8)] k = 0#8 := by
      intro k hk; simp only [Memory.read, unlistedByte]; rw [if_neg (by omega)]
    simp only [Memory.readWord]
    rw [l _ h4, l _ (by omega), l _ (by omega), l _ (by omega), b _ h4, b _ (by omega), b _ (by omega), b _ (by omega)]
    rfl

/-- `ByteOrderIsUnobservable`: a store in MEM, over two memories of unlike order. -/
theorem witness_ByteOrderIsUnobservable : ∃ t : State,
    { { cfg 3 with imemEndian := .big, dmemEndian := .big } with
      imemEndian := (cfg 3).imemEndian, dmemEndian := (cfg 3).dmemEndian } = cfg 3 ∧
    Memory.wf [(0, 1#8)] = true ∧ Memory.wf [(3, 1#8)] = true ∧
    SameWords .little [(0, 1#8)] .big [(3, 1#8)] ∧
    clock (cfg 3) { State.reset with
      imem := [(0, 1#8)], dmem := [(0, 1#8)], exmem := { ExMem.cleared with memWrite := true, writeData := 9#32 } } = .next t :=
  ⟨_, rfl, by decide, by decide, sameWords_one, rfl⟩

/-- `RunEndsAfterItsStepsOrAtAFault`: a refused construction, a run of two steps, and a run a misaligned initial PC ends
in its first step. -/
theorem witness_RunEndsAfterItsStepsOrAtAFault :
    construct (cfg 0) (withImemFile ['2', ' ', '1']) = .error (.misalignedAddress 2#32) ∧
    (∃ s, construct (cfg 0) { withImemFile [] with nCycles := 2 } = .ok s ∧ (runFor (cfg 0) 2 s).cycle = 2) ∧
    ∃ s, construct (cfg 0) { withImemFile [] with nCycles := 2, initPc := 2#32 } = .ok s ∧
      (runFor (cfg 0) 2 s).fault = some { cycle := 1, faults := [⟨.misalignedAccess, .ifetch, 2#32⟩] } :=
  ⟨rfl, ⟨_, rfl, by decide⟩, _, rfl, by decide⟩

theorem witness_MemoryFileLoads : Memory.wf [(4, 1#8)] = true ∧
    (∀ p ∈ [(0#32, 1#32), (0xFFFFFFFC#32, 2#32)], aligned p.1 = true) ∧
    ∃ p ∈ [(0#32, 1#32), (2#32, 5#32)], aligned p.1 = false :=
  ⟨by decide, by simp [aligned], (2#32, 5#32), by simp, by decide⟩

/-- `ResetZeroesTheLatches`, `ConstructionPlacesTheFiles`: a register file and memory files over launch values other than zero. -/
theorem witness_ConstructionPlacesTheFiles : ∃ (h : LaunchInputs) (s : State), h.imemInit.wf = true ∧
    h.dmemInit.wf = true ∧ construct (cfg 0) h = .ok s ∧ s.x[1] = 0x1F#32 ∧ s.x[2] = 7#32 :=
  ⟨{ initPc := 8#32, regInit := Vector.replicate 32 7#32, imemInit := [(3, 9#8)], dmemInit := [(4, 1#8)], nCycles := 0,
     regFile := ['1', ' ', '1', 'f'], imemFile := ['8', ' ', '2'], dmemFile := ['c', ' ', '3'] }, _, rfl, rfl, rfl,
    by decide, by decide⟩

theorem witness_RegisterFileLoads : (∀ p ∈ [(0, 5#32), (31, 0xFFFFFFFF#32)], p.1 < 32) ∧
    ∃ p ∈ [(1, 5#32), (32, 1#32)], 32 ≤ p.1 := ⟨by decide, (32, 1#32), by simp, by decide⟩

theorem witness_MalformedLineEndsTheScan : LineReads hexToken ['4', ' ', 'f'] (4#32, 15#32) ∧
    ¬ ∃ p, LineReads hexToken ['f', 'o', 'o'] p := by
  refine ⟨⟨['4'], ['f'], by decide, by decide, by decide⟩, ?_⟩
  rintro ⟨p, a, v, h, -⟩
  have ht : tokens ['f', 'o', 'o'] = [['f', 'o', 'o']] := by decide
  rw [ht] at h
  simp at h

end Sys2Proof.Tests
end

section
/-!
PROOFS. A run of at most `n` clock steps (70_reset_and_hazards.md R230), by induction on `n`: the number of steps it takes
is the number of states the host observes in it (60_exceptions.md R203).
-/

namespace Sys2Proof.Machine

/-- Where no fault is recorded there is a step; where one is, `runFor_of_some` says that the run is over. -/
theorem exists_clock_eq_next {c : Config} {s : State} (h : s.fault = none) : ∃ t, clock c s = .next t :=
  ⟨_, clock_of_none h⟩

theorem length_observedFor_le (c : Config) (n : Nat) (s : State) : (observedFor c n s).length ≤ n := by
  induction n generalizing s with
  | zero => simp
  | succ n ih =>
    cases hs : s.fault with
    | some record => simp [runFor_of_some hs]
    | none =>
      obtain ⟨t, ht⟩ := exists_clock_eq_next (c := c) hs
      simpa [observedFor_succ ht] using ih t

/-- The state a run ends in is the outcome of as many clock steps as the host observes. -/
theorem clockRun_length_observedFor (c : Config) (n : Nat) (s : State) :
    clockRun c (observedFor c n s).length s = .next (runFor c n s) := by
  induction n generalizing s with
  | zero => rfl
  | succ n ih =>
    cases hs : s.fault with
    | some record => simp [runFor_of_some hs, clockRun]
    | none =>
      obtain ⟨t, ht⟩ := exists_clock_eq_next (c := c) hs
      rw [observedFor_succ ht, List.length_cons, clockRun_succ ht, runFor_succ ht, ih t]

/-- The state observed at index `i` is the outcome of `i + 1` clock steps. -/
theorem clockRun_of_observedFor_getElem? {c : Config} {n i : Nat} {s v : State}
    (h : (observedFor c n s)[i]? = some v) : clockRun c (i + 1) s = .next v := by
  induction n generalizing s i with
  | zero => simp at h
  | succ n ih =>
    cases hs : s.fault with
    | some record => simp [runFor_of_some hs] at h
    | none =>
      obtain ⟨t, ht⟩ := exists_clock_eq_next (c := c) hs
      rw [observedFor_succ ht] at h
      rw [clockRun_succ ht]
      cases i with
      | zero =>
        obtain rfl : t = v := by simpa using h
        rfl
      | succ i => exact ih (by simpa using h)

/-- How a run of at most `n` steps, which took `m` of them and began at the cycle count `start`, can have ended: by its
bound, or by a fault that its last step recorded under that step's number (60_exceptions.md R190). -/
def EndsByBoundOrFault (start n m : Nat) (u : State) : Prop :=
  (u.fault = none ∧ m = n ∧ u.cycle = start + m) ∨
    ∃ r, u.fault = some r ∧ r.cycle = start + m ∧ u.cycle + 1 = start + m

/-- A step taken before the run moves its end on by one. -/
theorem EndsByBoundOrFault.succ {start n m : Nat} {u : State} (h : EndsByBoundOrFault (start + 1) n m u) :
    EndsByBoundOrFault start (n + 1) (m + 1) u := by
  obtain ⟨hf, hm, hc⟩ | ⟨r, hf, hr, hc⟩ := h
  · exact .inl ⟨hf, by omega, by omega⟩
  · exact .inr ⟨r, hf, by omega, by omega⟩

theorem runFor_endsByBoundOrFault {c : Config} {s : State} (n : Nat) (hs : s.fault = none) :
    EndsByBoundOrFault s.cycle n (observedFor c n s).length (runFor c n s) := by
  induction n generalizing s with
  | zero => exact .inl ⟨hs, rfl, rfl⟩
  | succ n ih =>
    obtain ⟨t, ht⟩ := exists_clock_eq_next (c := c) hs
    rw [observedFor_succ ht, runFor_succ ht, List.length_cons]
    obtain ⟨-, ⟨-, hcommit⟩ | ⟨-, hraise⟩⟩ := clock_cases ht
    · have hend := ih (s := t) (by simp [hcommit, hs])
      have hcycle : t.cycle = s.cycle + 1 := by simp [hcommit]
      rw [hcycle] at hend
      exact hend.succ
    · have hrecord : t.fault = some { cycle := s.cycle + 1, faults := stepFaults c s } := by simp [hraise]
      obtain ⟨hrun, hseen⟩ := runFor_of_some (c := c) (n := n) hrecord
      rw [hrun, hseen]
      exact .inr ⟨_, hrecord, rfl, by simp [hraise]⟩

/-- Construction ends in a launch state. -/
theorem construct_eq_ok {c : Config} {h : LaunchInputs} {s : State} (hs : construct c h = .ok s) :
    ∃ x imem dmem, s = State.launch h.initPc x imem dmem := by
  unfold construct at hs
  repeat' split at hs
  all_goals cases hs
  exact ⟨_, _, _, rfl⟩

/-- Where construction is refused there is no run and nothing to observe (R226, R227). -/
theorem hostRun_hostObserve_of_error {c : Config} {h : LaunchInputs} {err : LoadError} (he : construct c h = .error err) :
    hostRun c h = .error err ∧ hostObserve c h = .error err := by
  simp [hostRun, hostObserve, he]

theorem hostRun_hostObserve_of_ok {c : Config} {h : LaunchInputs} {s : State} (hs : construct c h = .ok s) :
    hostRun c h = .ok (runFor c h.nCycles s) ∧ hostObserve c h = .ok (observedFor c h.nCycles s) := by
  simp [hostRun, hostObserve, hs]

/-- Settles O57: the number of steps is the number of observed states; how the run ends is
`runFor_endsByBoundOrFault` from a launch state, which records no fault and has the cycle count 0. -/
theorem runEndsAfterItsStepsOrAtAFault : Obligations.RunEndsAfterItsStepsOrAtAFault := by
  refine ⟨fun _ _ _ he => hostRun_hostObserve_of_error he, fun c h s hs => ?_⟩
  obtain ⟨hrun, hobserve⟩ := hostRun_hostObserve_of_ok hs
  obtain ⟨x, imem, dmem, rfl⟩ := construct_eq_ok hs
  have hend := runFor_endsByBoundOrFault (c := c) (s := State.launch h.initPc x imem dmem) h.nCycles rfl
  refine ⟨_, _, _, hrun, hobserve, length_observedFor_le .., clockRun_length_observedFor .., rfl, ?_, ?_⟩
  · exact fun i hi => ⟨_, List.getElem?_eq_getElem hi, clockRun_of_observedFor_getElem? (List.getElem?_eq_getElem hi)⟩
  · simpa [EndsByBoundOrFault, State.launch] using hend

end Sys2Proof.Machine
end

section
/-!
PROOFS. Alignment of the addresses the core makes (10_state.md R25, 44_branch.md R175), and which faults a step can raise
(60_exceptions.md R191, R193).
-/

namespace Sys2Proof.Machine

/-! ## Alignment -/

theorem aligned_addWrap {a b : Word} (ha : aligned a = true) (hb : aligned b = true) :
    aligned (addWrap a b) = true := by
  rw [aligned_iff] at ha hb ⊢
  rw [addWrap, BitVec.toNat_add]
  omega

theorem aligned_shiftLeft2 (x : Word) : aligned (shiftLeft2 x) = true := by
  rw [aligned_iff, shiftLeft2, BitVec.toNat_append]
  simp [Nat.shiftLeft_eq]

theorem aligned_pcPlus4 {pc : Word} (h : aligned pc = true) : aligned (pcPlus4 pc) = true :=
  aligned_addWrap h (by decide)

theorem aligned_branchTarget {pc4 : Word} (imm : Word) (h : aligned pc4 = true) :
    aligned (branchTarget pc4 imm) = true :=
  aligned_addWrap h (aligned_shiftLeft2 imm)

/-! ## Faults -/

/-- Which fault an access raises (20_memory.md R52, R54). -/
theorem Memory.access_faults (e : Endian) (m : Memory) (a w : Word) (rd wr : Bool) (stage : Stage) :
    (m.access e a w rd wr).faults stage a =
      if rd = true ∧ wr = true then [{ kind := .memReadWriteConflict, stage := stage, info := a }]
      else if (rd = true ∨ wr = true) ∧ aligned a = false then
        [{ kind := .misalignedAccess, stage := stage, info := a }]
      else [] := by
  unfold Memory.access memRead memWrite MemAccess.faults
  cases rd <;> cases wr <;> cases aligned a <;> rfl

/-- IF faults on a misaligned PC, unless a stall holds its fetch back (41_pipeline.md R137). -/
theorem fetchFaults_eq (c : Config) (s : State) :
    fetchFaults c s =
      if stall c s = false ∧ aligned s.pc = false then
        [{ kind := .misalignedAccess, stage := .ifetch, info := s.pc }]
      else [] := by
  unfold fetchFaults fetchWord memRead
  cases stall c s <;> cases aligned s.pc <;> rfl

/-- From an empty pipeline only the fetch can fault. -/
theorem State.EmptyPipeline.stepFaults_eq {c : Config} {s : State} (h : s.EmptyPipeline) (hpc : aligned s.pc = false) :
    stepFaults c s = [{ kind := .misalignedAccess, stage := .ifetch, info := s.pc }] := by
  have hmem : (dmemAccess c s).faults .mem s.exmem.aluResult = [] := by
    rw [dmemAccess, Memory.access_faults, h.exmem]; rfl
  have hstall : stall c s = false := by rw [stall, h.idex]; rfl
  rw [Machine.stepFaults_eq, hmem, fetchFaults_eq, if_pos ⟨hstall, hpc⟩, List.nil_append]

/-- Settles O47: a sum of multiples of 4 is one, also modulo 2^32; from an empty pipeline the step's one fault is the
fetch's. -/
theorem branchTargetsStayAligned : Obligations.BranchTargetsStayAligned := by
  refine ⟨fun _ => aligned_pcPlus4, fun _ imm => aligned_branchTarget imm, fun c s hempty hpc => ?_⟩
  have hfaults := hempty.stepFaults_eq (c := c) hpc
  rw [clock_of_none hempty.fault, hfaults]
  rfl

end Sys2Proof.Machine
end

section
/-!
PROOFS. The invariant of the machine (`State.Inv`): it holds at reset, and every clock step keeps it, in every
configuration.
-/

namespace Sys2Proof.Machine

/-! ## Control bundles in flight (30_encoding.md R80) -/

theorem ctl0_legal : ctl0.Legal := by decide

theorem Ctl.Legal.not_memRead_and_memWrite {k : Ctl} (h : k.Legal) : ¬ (k.memRead = true ∧ k.memWrite = true) := by
  rcases h with rfl | rfl | rfl | rfl | rfl | rfl <;> decide

/-- No bundle carries the ALUOp that selects no operation (R112). -/
theorem Ctl.Legal.aluOp_ne_three {k : Ctl} (h : k.Legal) : k.aluOp ≠ 0b11#2 := by
  rcases h with rfl | rfl | rfl | rfl | rfl | rfl <;> decide

theorem ExMem.Legal.not_memRead_and_memWrite {l : ExMem} (h : l.Legal) :
    ¬ (l.memRead = true ∧ l.memWrite = true) := by
  obtain ⟨k, hk, -, hread, hwrite, -, -⟩ := h
  rw [hread, hwrite]
  exact hk.not_memRead_and_memWrite

theorem ExMem.squashed_legal (l : ExMem) : l.squashed.Legal := ⟨ctl0, ctl0_legal, rfl, rfl, rfl, rfl, rfl⟩

theorem idExNext_legal (c : Config) (s : State) : (idExNext c s).ctl.Legal := by
  unfold idExNext
  cases stall c s
  · exact controlBundle_cases _
  · exact ctl0_legal

theorem exMemNext_legal (c : Config) {s : State} (h : s.idex.ctl.Legal) : (exMemNext c s).Legal :=
  ⟨s.idex.ctl, h, rfl, rfl, rfl, rfl, rfl⟩

theorem memWbNext_legal (c : Config) {s : State} (h : s.exmem.Legal) : (memWbNext c s).Legal := by
  obtain ⟨k, hk, -, -, -, hregWrite, hmemToReg⟩ := h
  exact ⟨k, hk, hregWrite, hmemToReg⟩

/-! ## The records a step can log (60_exceptions.md R195) -/

theorem Diag.Reachable.succ {d : Diag} {n : Nat} (h : d.Reachable n) : d.Reachable (n + 1) :=
  ⟨Nat.le_succ_of_le h.1, h.2⟩

/-- Every ALU code the ALU-control unit gives has an operation, so that the ALU path's one diagnostic is the unit's. -/
theorem aluPath_diag_eq_some {c : Config} {a b drawn : Word} {op : BitVec 2} {f : BitVec 6} {kind : DiagKind}
    {detail : Nat} (h : (aluPath c a b op f drawn).diag = some (kind, detail)) :
    aluControl c op f = .unsupported kind detail := by
  unfold aluPath at h
  cases hctl : aluControl c op f with
  | code code =>
    obtain ⟨g, hg⟩ := aluControl_code_supported hctl
    simp [hctl, alu, hg, AluOut.of] at h
  | unsupported kind' detail' =>
    obtain ⟨rfl, rfl⟩ : kind' = kind ∧ detail' = detail := by simpa [hctl, AluOut.of] using h
    rfl

theorem aluControl_unsupported_kind {c : Config} {op : BitVec 2} {f : BitVec 6} {kind : DiagKind} {detail : Nat}
    (hop : op ≠ 0b11#2) (h : aluControl c op f = .unsupported kind detail) : kind = .unsupportedFunct := by
  have hcases : ∀ op : BitVec 2, op ≠ 0b11#2 → op = 0b00#2 ∨ op = 0b01#2 ∨ op = 0b10#2 := by decide
  obtain rfl | rfl | rfl := hcases op hop
  · cases h
  · cases h
  · change aluControlRType c f = _ at h
    unfold aluControlRType at h
    repeat' split at h
    all_goals cases h
    rfl

theorem mem_aluOut_diags {o : AluOut} {s : State} {d : Diag} :
    d ∈ o.diags s ↔ ∃ kind detail, o.diag = some (kind, detail) ∧ d = s.diag .ex kind detail := by
  unfold AluOut.diags
  split <;> simp_all

theorem mem_controlDiags {op : BitVec 6} {s : State} {d : Diag} (h : d ∈ controlDiags op s) :
    d = s.diag .id .unknownOpcode op.toNat := by
  unfold controlDiags at h
  split at h
  · cases h
  · exact List.mem_singleton.mp h

theorem stepDiags_reachable {c : Config} {s : State} (hctl : s.idex.ctl.Legal) {d : Diag} (hd : d ∈ stepDiags c s) :
    d.Reachable (s.cycle + 1) := by
  obtain hex | hid := List.mem_append.mp hd
  · obtain ⟨kind, detail, hdiag, rfl⟩ := mem_aluOut_diags.mp hex
    have hkind := aluControl_unsupported_kind hctl.aluOp_ne_three (aluPath_diag_eq_some hdiag)
    exact ⟨le_rfl, .inl ⟨rfl, hkind⟩⟩
  · rw [mem_controlDiags hid]
    exact ⟨le_rfl, .inr ⟨rfl, rfl⟩⟩

/-! ## The fault a step can raise (R192) -/

/-- Under the invariant a step raises no fault, or that of one misaligned `lw` or `sw`. -/
theorem State.Inv.stepFaults_cases {s : State} (h : s.Inv) (c : Config) :
    stepFaults c s = [] ∨
      ((s.exmem.memRead = true ∨ s.exmem.memWrite = true) ∧ aligned s.exmem.aluResult = false ∧
        stepFaults c s = [{ kind := .misalignedAccess, stage := .mem, info := s.exmem.aluResult }]) := by
  have hfetch : fetchFaults c s = [] := by simp [fetchFaults_eq, h.pc_aligned]
  rw [stepFaults_eq, hfetch, List.append_nil, dmemAccess, Memory.access_faults,
    if_neg h.exmem_legal.not_memRead_and_memWrite]
  split
  case isTrue hmis => exact .inr ⟨hmis.1, hmis.2, rfl⟩
  case isFalse => exact .inl rfl

/-! ## The invariant is kept -/

theorem wbFile_getElem_zero (s : State) : (wbFile s)[0] = s.x[0] := by
  unfold wbFile RegFile.access
  cases s.memwb.regWrite
  · rfl
  · exact RegFile.write_getElem_zero ..

theorem pcNext_aligned (c : Config) {s : State} (hpc : aligned s.pc = true) (htarget : aligned s.exmem.target = true) :
    aligned (pcNext c s) = true := by
  unfold pcNext
  cases stall c s
  · cases pcSrc s
    · exact aligned_pcPlus4 hpc
    · exact htarget
  · exact hpc

theorem ifIdNext_aligned (c : Config) {s : State} (hpc : aligned s.pc = true) (hifid : aligned s.ifid.pc4 = true) :
    aligned (ifIdNext c s).pc4 = true := by
  unfold ifIdNext
  split
  · exact hifid
  · exact aligned_pcPlus4 hpc

theorem State.Inv.commit {s : State} (h : s.Inv) (hf : s.fault = none) (c : Config) : (commit c s).Inv where
  imem_wf := by rw [commit_imem]; exact h.imem_wf
  dmem_wf := by rw [commit_dmem]; exact Memory.wf_access h.dmem_wf
  reg0 := by simp only [commit_x, wbFile_getElem_zero, h.reg0]
  pc_aligned := by
    rw [commit_pc]
    split
    · exact h.target_aligned
    · exact pcNext_aligned c h.pc_aligned h.target_aligned
  ifid_aligned := by
    rw [commit_ifid]
    split
    · decide
    · exact ifIdNext_aligned c h.pc_aligned h.ifid_aligned
  idex_aligned := by rw [commit_idex]; split <;> exact h.ifid_aligned
  target_aligned := by rw [commit_exmem]; split <;> exact aligned_branchTarget _ h.idex_aligned
  idex_legal := by
    rw [commit_idex]
    split
    · exact ctl0_legal
    · exact idExNext_legal c s
  exmem_legal := by
    rw [commit_exmem]
    split
    · exact ExMem.squashed_legal _
    · exact exMemNext_legal c h.idex_legal
  memwb_legal := by rw [commit_memwb]; exact memWbNext_legal c h.exmem_legal
  log_reachable := by
    intro d hd
    rw [commit_diagLog] at hd
    rw [commit_cycle]
    obtain hold | hnew := List.mem_append.mp hd
    · exact (h.log_reachable d hold).succ
    · exact stepDiags_reachable h.idex_legal hnew
  fault_reachable := by simp [hf]

/-- Recording a fault keeps the invariant where the record is one the core can make. -/
theorem State.Inv.raise {s : State} {fs : List FaultEntry} (h : s.Inv)
    (hfs : FaultRecord.Reachable { cycle := s.cycle + 1, faults := fs } s.cycle) : (s.raise fs).Inv :=
  { h with fault_reachable := by rintro r ⟨⟩; exact hfs }

theorem clock_keeps_inv {c : Config} {s t : State} (h : s.Inv) (hst : clock c s = .next t) : t.Inv := by
  obtain ⟨hf, ⟨-, rfl⟩ | ⟨hne, rfl⟩⟩ := clock_cases hst
  · exact h.commit hf c
  · obtain hnil | ⟨-, hmis, hone⟩ := h.stepFaults_cases c
    · exact absurd hnil hne
    · exact h.raise ⟨rfl, s.exmem.aluResult, hmis, hone⟩

/-- Settles O48: `step` is the clock step of one configuration; a step commits (`State.Inv.commit`) or records its faults
(`State.Inv.raise`), which under the invariant are one misaligned data access. -/
theorem stepKeepsTheInvariant : Obligations.StepKeepsTheInvariant := fun _ _ => clock_keeps_inv

/-- A launch from an aligned PC and canonical memories meets the invariant. -/
theorem State.launch_inv {pc : Word} {x : RegFile} {imem dmem : Memory} (hpc : aligned pc = true)
    (himem : imem.wf = true) (hdmem : dmem.wf = true) : (State.launch pc x imem dmem).Inv where
  imem_wf := himem
  dmem_wf := hdmem
  reg0 := by simp [State.launch]
  pc_aligned := hpc
  ifid_aligned := rfl
  idex_aligned := rfl
  target_aligned := rfl
  idex_legal := ctl0_legal
  exmem_legal := ⟨ctl0, ctl0_legal, rfl, rfl, rfl, rfl, rfl⟩
  memwb_legal := ⟨ctl0, ctl0_legal, rfl, rfl⟩
  log_reachable := by rintro d ⟨⟩
  fault_reachable := by rintro r ⟨⟩

/-- Settles O46: reset is a launch from address 0 with empty memories. -/
theorem invariantAtReset : Obligations.InvariantAtReset :=
  State.launch_inv rfl State.reset_memory_wf.1 State.reset_memory_wf.2

end Sys2Proof.Machine
end

section
/-!
PROOFS. What the meaning of an instruction can leave (41_pipeline.md R120), said once; and from it and `clock_cases` the
rules that hold of every instruction and every clock step alike.
-/

namespace Sys2Proof.Machine

/-! ## Everything an instruction can do -/

/-- The states an instruction's meaning can end in, from `s`: a destination written, with or without the diagnostic of an
unsupported `nor`; a store; a branch; or the fault of a misaligned access. -/
inductive ExecEnd (s : State) : State → Prop where
  | writeBack (dst : RegIdx) (v : Word) : ExecEnd s (s.setReg dst v).advance
  | drawn (dst : RegIdx) (v : Word) (ds : List Diag) : ExecEnd s ((s.setReg dst v).advance.log ds)
  | store (m : Memory) : ExecEnd s { s with dmem := m }.advance
  | branch (pc : Word) : ExecEnd s { s with pc := pc, draws := s.draws + 1 }
  | fault (fs : List FaultEntry) : ExecEnd s (s.raise fs)

theorem loadWord_eq_ifRunning (e : Endian) (rt rs : RegIdx) (imm : BitVec 16) (s : State) :
    ∃ t, ExecEnd s t ∧ loadWord e rt rs imm s = ifRunning s (.next t) := by
  unfold loadWord
  split
  · exact ⟨_, .writeBack .., rfl⟩
  · exact ⟨_, .fault _, rfl⟩

theorem storeWord_eq_ifRunning (e : Endian) (rt rs : RegIdx) (imm : BitVec 16) (s : State) :
    ∃ t, ExecEnd s t ∧ storeWord e rt rs imm s = ifRunning s (.next t) := by
  unfold storeWord
  split
  · exact ⟨_, .store _, rfl⟩
  · exact ⟨_, .fault _, rfl⟩

theorem norIn_eq_ifRunning (c : Config) (rd rs rt : RegIdx) (s : State) :
    ∃ t, ExecEnd s t ∧ norIn c rd rs rt s = ifRunning s (.next t) := by
  unfold norIn
  split
  · exact ⟨_, .writeBack .., rfl⟩
  · exact ⟨_, .drawn .., rfl⟩

/-- Every instruction's meaning is guarded by the fault record, and ends in one of the states of `ExecEnd`. -/
theorem exec_eq_ifRunning (i : Instr) (s : State) : ∃ t, ExecEnd s t ∧ exec i s = ifRunning s (.next t) := by
  cases i with
  | add | sub | and | or | slt | addi => exact ⟨_, .writeBack .., rfl⟩
  | nor => exact norIn_eq_ifRunning ..
  | lw => exact loadWord_eq_ifRunning ..
  | sw => exact storeWord_eq_ifRunning ..
  | beq => exact ⟨_, .branch _, rfl⟩

theorem exec_of_some {i : Instr} {s : State} {record : FaultRecord} (h : s.fault = some record) :
    exec i s = .fault (.stopped record) := by
  obtain ⟨t, -, ht⟩ := exec_eq_ifRunning i s
  rw [ht, ifRunning_of_some h]

/-- If an instruction answers a next state, it is one of the states of `ExecEnd`. -/
theorem exec_cases {i : Instr} {s t : State} (h : exec i s = .next t) : ExecEnd s t := by
  obtain ⟨u, hu, hexec⟩ := exec_eq_ifRunning i s
  obtain ⟨-, hnext⟩ := ifRunning_eq_next (hexec ▸ h)
  cases hnext
  exact hu

theorem ExecEnd.imem_eq {s t : State} (h : ExecEnd s t) : t.imem = s.imem := by cases h <;> rfl

theorem ExecEnd.cycle_eq {s t : State} (h : ExecEnd s t) : t.cycle = s.cycle := by cases h <;> rfl

/-! ## Stopping, and the instruction memory -/

/-- Settles O28: the clock step and every instruction are guarded by the fault record (`ifRunning`). -/
theorem stepsExactlyWhileNoFault : Obligations.StepsExactlyWhileNoFault :=
  ⟨fun _ => exists_clock_eq_next, fun _ _ hr => ⟨clock_of_some hr, fun _ => exec_of_some hr⟩⟩

theorem clock_imem {c : Config} {s t : State} (h : clock c s = .next t) : t.imem = s.imem := by
  obtain ⟨-, ⟨-, rfl⟩ | ⟨-, rfl⟩⟩ := clock_cases h
  · exact commit_imem c s
  · rfl

/-- Settles O44: neither a commit nor a fault record changes `IMEM`, nor does any end of an instruction. -/
theorem instructionMemoryIsNeverWritten : Obligations.InstructionMemoryIsNeverWritten :=
  ⟨fun _ _ => clock_imem, fun _ _ _ h => (exec_cases h).imem_eq⟩

/-! ## The cycle counter (10_state.md R33, 60_exceptions.md R200) -/

theorem clock_cycle {c : Config} {s t : State} (h : clock c s = .next t) :
    t.cycle = if t.fault = none then s.cycle + 1 else s.cycle := by
  obtain ⟨hf, ⟨-, rfl⟩ | ⟨-, rfl⟩⟩ := clock_cases h
  · rw [commit_cycle, commit_fault, if_pos hf]
  · rfl

theorem stepFaults_withCycle (c : Config) (s : State) (n : Nat) :
    stepFaults c { s with cycle := n } = stepFaults c s := rfl

/-- The squash reads neither the count nor the log. -/
theorem squash_withCycle (c : Config) (s t : State) (n m : Nat) (ds : List Diag) :
    squash c { s with cycle := n } { t with cycle := m, diagLog := ds } =
      { squash c s t with cycle := m, diagLog := ds } := by
  change squash c s { t with cycle := m, diagLog := ds } = _
  unfold squash
  split_ifs <;> rfl

/-- Of a step that commits, the count reaches the next count and the step numbers of the new records, and nothing else. -/
theorem commit_withCycle (c : Config) (s : State) (n : Nat) :
    commit c { s with cycle := n } =
      { commit c s with cycle := n + 1, diagLog := s.diagLog ++ stepDiags c { s with cycle := n } } := by
  rw [commit, commit, ← squash_withCycle c s _ n]
  rfl

/-- What a record says beside its step number. -/
def Diag.content (d : Diag) : Stage × DiagKind × Nat := (d.stage, d.kind, d.detail)

theorem AluOut.diags_content_withCycle (o : AluOut) (s : State) (n : Nat) :
    (o.diags { s with cycle := n }).map Diag.content = (o.diags s).map Diag.content := by
  unfold AluOut.diags
  split <;> rfl

theorem controlDiags_content_withCycle (op : BitVec 6) (s : State) (n : Nat) :
    (controlDiags op { s with cycle := n }).map Diag.content = (controlDiags op s).map Diag.content := by
  unfold controlDiags
  split <;> rfl

theorem stepDiags_content_withCycle (c : Config) (s : State) (n : Nat) :
    (stepDiags c { s with cycle := n }).map Diag.content = (stepDiags c s).map Diag.content := by
  unfold stepDiags
  rw [List.map_append, List.map_append]
  exact congrArg₂ _ (AluOut.diags_content_withCycle (exAlu c s) s n) (controlDiags_content_withCycle _ s n)

/-- Settles O43: the two runs raise the same faults (`stepFaults_withCycle`); where they commit, they differ as
`commit_withCycle` says, and where they record, only in the record's step number. -/
theorem cycleCounter : Obligations.CycleCounter := by
  refine ⟨rfl, fun _ _ _ => clock_cycle, fun _ _ _ h => (exec_cases h).cycle_eq, fun c s t n h => ?_⟩
  obtain ⟨hf, hcases⟩ := clock_cases h
  have hclock := clock_of_none (c := c) (s := { s with cycle := n }) hf
  rw [stepFaults_withCycle] at hclock
  obtain ⟨hnil, rfl⟩ | ⟨hne, rfl⟩ := hcases
  · rw [if_pos hnil, commit_withCycle] at hclock
    refine ⟨_, hclock, ?_, ?_, rfl, rfl⟩
    · simp only [commit_cycle]
      omega
    · rw [commit_diagLog, List.map_append, List.map_append]
      exact congrArg _ (stepDiags_content_withCycle c s n)
  · rw [if_neg hne] at hclock
    exact ⟨_, hclock, Nat.add_comm .., rfl, rfl, rfl⟩

end Sys2Proof.Machine
end

section
/-!
PROOFS. The register file (10_state.md R20 to R22), and what a construction leaves (70_reset_and_hazards.md R220, R225 to
R227): the last pair of a file that names a register or a word decides what it holds, by induction over the pairs.
-/

namespace Sys2Proof.Machine

/-! ## The register file -/

/-- Settles O13: no read of register 0 looks at the file, and no write to it changes the file. -/
theorem registerZeroIsWired : Obligations.RegisterZeroIsWired :=
  fun x => ⟨RegFile.read_zero x, RegFile.write_zero x, fun _ => RegFile.read_zero _⟩

/-- A register read after an access (R22). -/
theorem RegFile.read_access_file (x : RegFile) (r1 r2 w : RegIdx) (v : Word) (we : Bool) (r : RegIdx) :
    (x.access r1 r2 w v we).file.read r = if we = true ∧ w ≠ 0#5 ∧ r = w then v else x.read r := by
  cases we
  · rfl
  · simp [RegFile.access, RegFile.read_write, and_comm]

/-- Settles O14: WB's and ID's calls are `wbFile` and `idAccess` as they are defined, and an access with regWrite 0 gives
the file back. -/
theorem registerFileAccess : Obligations.RegisterFileAccess :=
  ⟨fun x r1 r2 w v we => ⟨rfl, rfl, x.read_access_file r1 r2 w v we⟩,
    fun _ => ⟨⟨0#5, 0#5, rfl⟩, ⟨0#5, 0#32, rfl⟩, rfl⟩⟩

/-- What is stored for register 0 is never read. -/
theorem RegFile.read_set_zero (x : RegFile) (v : Word) (r : RegIdx) : RegFile.read (x.set 0 v) r = x.read r := by
  by_cases hr : r = 0#5
  · simp [hr]
  · have hne : 0 ≠ r.toNat := fun e => hr (BitVec.eq_of_toNat_eq e.symm)
    rw [RegFile.read_of_ne hr, RegFile.read_of_ne hr, Vector.getElem_set_ne _ _ hne]

/-! ## A word written, byte by byte -/

theorem Memory.read_writeWord_inside {e : Endian} {m : Memory} {a w : Word} {i : Nat} (hm : m.wf = true)
    (ha : aligned a = true) (hi : i < 4) : (m.writeWord e a w).read (a.toNat + i) = byteOfWord e w i := by
  have hwrap := aligned_no_wrap ha
  have hm0 := Memory.wf_write (b := byteOfWord e w 0) hm (a := a.toNat) (by omega)
  have hm1 := Memory.wf_write (b := byteOfWord e w 1) hm0 (a := a.toNat + 1) (by omega)
  have hm2 := Memory.wf_write (b := byteOfWord e w 2) hm1 (a := a.toNat + 2) (by omega)
  unfold Memory.writeWord
  obtain rfl | rfl | rfl | rfl : i = 0 ∨ i = 1 ∨ i = 2 ∨ i = 3 := by omega
  · rw [Memory.read_write_ne (by omega), Memory.read_write_ne (by omega), Memory.read_write_ne (by omega)]
    exact Memory.read_write_self hm
  · rw [Memory.read_write_ne (by omega), Memory.read_write_ne (by omega)]
    exact Memory.read_write_self hm0
  · rw [Memory.read_write_ne (by omega)]
    exact Memory.read_write_self hm1
  · exact Memory.read_write_self hm2

/-- A byte read after a word write: byte `k % 4` of the word where the word was written at the aligned address below `k`,
and otherwise as before. -/
theorem Memory.read_writeWord {e : Endian} {m : Memory} {a w : Word} (hm : m.wf = true) (ha : aligned a = true) (k : Nat) :
    (m.writeWord e a w).read k = if a.toNat = k - k % 4 then byteOfWord e w (k % 4) else m.read k := by
  have hmod := (aligned_iff a).mp ha
  split
  case isTrue hword =>
    have hinside := Memory.read_writeWord_inside (e := e) (w := w) hm ha (Nat.mod_lt k (by decide))
    rwa [hword, Nat.sub_add_cancel (Nat.mod_le k 4)] at hinside
  case isFalse => exact Memory.read_writeWord_outside (by omega)

/-! ## The files' pairs -/

/-- The last pair with a property is the last of the later pairs with it or, where none has it, the first pair. -/
theorem find?_reverse_cons {α : Type} (f : α → Bool) (p : α) (ps : List α) :
    (p :: ps).reverse.find? f = (ps.reverse.find? f).or (if f p then some p else none) := by
  rw [List.reverse_cons, List.find?_append, List.find?_singleton]

theorem read_loadRegisters {x y : RegFile} {ps : List (Nat × Word)} (h : loadRegisters x ps = .ok y) {r : RegIdx}
    (hr : r ≠ 0#5) :
    y.read r = ((ps.reverse.find? (fun p => p.1 == r.toNat)).map Prod.snd).getD (x.read r) := by
  induction ps generalizing x with
  | nil => cases h; rfl
  | cons p ps ih =>
    obtain ⟨i, v⟩ := p
    unfold loadRegisters at h
    split at h
    case isFalse => cases h
    case isTrue hi =>
      have hidx : r = BitVec.ofNat 5 i ↔ i = r.toNat := by
        rw [← BitVec.toNat_inj, BitVec.toNat_ofNat, Nat.mod_eq_of_lt hi, eq_comm]
      rw [ih h, RegFile.read_write, find?_reverse_cons]
      cases ps.reverse.find? (fun p => p.1 == r.toNat) with
      | some q => rfl
      | none =>
        by_cases hir : i = r.toNat
        · simp [hir, hr]
        · simp [hir, hidx]

/-- The byte at `k` after the pairs of a memory file: that of the last word placed over it, or the launch byte. -/
def placedByte (e : Endian) (m : Memory) (ps : List (Word × Word)) (k : Nat) : Byte :=
  match ps.reverse.find? (fun p => p.1.toNat == k - k % 4) with
  | some p => byteOfWord e p.2 (k % 4)
  | none => m.read k

/-- One pair more in front is a word write more before the rest. -/
theorem placedByte_cons {e : Endian} {m : Memory} {a v : Word} (hm : m.wf = true) (ha : aligned a = true)
    (ps : List (Word × Word)) (k : Nat) :
    placedByte e m ((a, v) :: ps) k = placedByte e (m.writeWord e a v) ps k := by
  unfold placedByte
  rw [find?_reverse_cons, Memory.read_writeWord hm ha]
  cases ps.reverse.find? (fun p => p.1.toNat == k - k % 4) with
  | some q => rfl
  | none => by_cases hk : a.toNat = k - k % 4 <;> simp [hk]

theorem read_loadMemory {e : Endian} {m m' : Memory} {ps : List (Word × Word)} (hm : m.wf = true)
    (h : loadMemory e m ps = .ok m') (k : Nat) :
    m'.read k = placedByte e m ps k := by
  induction ps generalizing m with
  | nil => cases h; rfl
  | cons p ps ih =>
    obtain ⟨a, v⟩ := p
    unfold loadMemory at h
    split at h
    case h_2 => cases h
    case h_1 m₁ hwrite =>
      obtain ⟨ha, rfl⟩ := memWrite_eq_some.mp hwrite
      rw [ih (Memory.wf_writeWord hm ha) h, placedByte_cons hm ha]

/-! ## Construction -/

/-- Where construction succeeds, each file loads, and the state is the launch state of what they leave. -/
theorem construct_loads {c : Config} {h : LaunchInputs} {s : State} (hs : construct c h = .ok s) :
    ∃ x imem dmem, loadMemory c.imemEndian h.imemInit (scanPairs hexToken (splitLines h.imemFile)) = .ok imem ∧
      loadMemory c.dmemEndian h.dmemInit (scanPairs hexToken (splitLines h.dmemFile)) = .ok dmem ∧
      loadRegisters (h.regInit.set 0 0#32) (scanPairs indexToken (splitLines h.regFile)) = .ok x ∧
      s = State.launch h.initPc x imem dmem := by
  unfold construct at hs
  split at hs
  · cases hs
  next imem himem =>
    split at hs
    · cases hs
    next dmem hdmem =>
      split at hs
      · cases hs
      next x hx =>
        cases hs
        exact ⟨x, imem, dmem, himem, hdmem, hx, rfl⟩

@[simp] theorem State.launch_reg (pc : Word) (x : RegFile) (im dm : Memory) (r : RegIdx) :
    (State.launch pc x im dm).reg r = x.read r := x.read_set_zero 0#32 r

/-- Settles O51: `read_loadRegisters` and `read_loadMemory` for the three files. -/
theorem constructionPlacesTheFiles : Obligations.ConstructionPlacesTheFiles := by
  intro c h s himemInit hdmemInit hs
  obtain ⟨x, imem, dmem, himem, hdmem, hx, rfl⟩ := construct_loads hs
  refine ⟨rfl, fun r hr => ?_, fun k => ?_, fun k => ?_, rfl, rfl, rfl⟩
  · rw [State.launch_reg, read_loadRegisters hx hr, RegFile.read_set_zero]
  · exact read_loadMemory himemInit himem k
  · exact read_loadMemory hdmemInit hdmem k

/-- Settles O50: construction ends in a launch state (`construct_eq_ok`), whose latches are cleared; the rest is about the
zero word alone. -/
theorem resetZeroesTheLatches : Obligations.ResetZeroesTheLatches := by
  refine ⟨fun c h s hs => ?_, rfl, by decide, by decide, fun x v => ?_⟩
  · obtain ⟨x, imem, dmem, rfl⟩ := construct_eq_ok hs
    exact ⟨rfl, rfl, rfl, rfl, rfl⟩
  · exact RegFile.write_zero x v

end Sys2Proof.Machine
end

section
/-!
PROOFS. The memory component (20_memory.md): what an access gives, as one condition on its two flags and its address; word
writes and word reads; and `lw` and `sw` as the pair of outcomes their effective address decides.
-/

namespace Sys2Proof.Machine

/-! ## An access, by its flags and its address (R52, R54) -/

theorem aligned_eq_false_iff (a : Word) : aligned a = false ↔ a.toNat % 4 ≠ 0 := by
  rw [← Bool.not_eq_true, aligned_iff]

theorem memRead_of_aligned {e : Endian} {m : Memory} {a : Word} (ha : aligned a = true) :
    memRead e m a = some (m.readWord e a) := memRead_eq_some.mpr ⟨ha, rfl⟩

theorem memWrite_of_aligned {e : Endian} {m : Memory} {a w : Word} (ha : aligned a = true) :
    memWrite e m a w = some (m.writeWord e a w) := memWrite_eq_some.mpr ⟨ha, rfl⟩

/-- The memory after an access. -/
theorem Memory.access_memOr (e : Endian) (m : Memory) (a w : Word) (rd wr : Bool) :
    (m.access e a w rd wr).memOr m =
      if rd = false ∧ wr = true ∧ aligned a = true then m.writeWord e a w else m := by
  unfold Memory.access memRead memWrite MemAccess.memOr
  cases rd <;> cases wr <;> cases aligned a <;> rfl

/-- The read-data output of an access. -/
theorem Memory.access_dataOr (e : Endian) (m : Memory) (a w : Word) (rd wr : Bool) (drawn : Word) :
    (m.access e a w rd wr).dataOr drawn =
      if rd = true ∧ wr = false ∧ aligned a = true then m.readWord e a else drawn := by
  unfold Memory.access memRead memWrite MemAccess.dataOr
  cases rd <;> cases wr <;> cases aligned a <;> rfl

/-- Settles O15: the contract is `Memory.access` at each pair of flags, its faults are `Memory.access_faults`, and an
aligned read is `Memory.readWord`, which composes the four bytes in the memory's order. -/
theorem memoryAccessContract : Obligations.MemoryAccessContract := by
  refine ⟨fun e m a w => ⟨rfl, rfl, rfl, rfl⟩, fun e m a w rd wr stage => ?_, fun m a => ⟨fun ha e => ?_, fun ha => ?_⟩⟩
  · simp only [Memory.access_faults, aligned_eq_false_iff]
  · exact memRead_eq_none.mpr ((aligned_eq_false_iff a).mpr ha)
  · have haligned := (aligned_iff a).mpr ha
    exact ⟨memRead_of_aligned haligned, memRead_of_aligned haligned⟩

/-- Settles O41: MEM's faults are those of its access, IF's those of its fetch, and no other stage raises one
(`stepFaults_eq`). -/
theorem faultsOfAStep : Obligations.FaultsOfAStep := by
  intro c s
  rw [stepFaults_eq, dmemAccess, Memory.access_faults, fetchFaults_eq]
  simp only [aligned_eq_false_iff]

/-! ## Word writes and word reads (R55 to R57) -/

/-- A word read after a word write: the word written where it was written, and otherwise as before. -/
theorem Memory.readWord_writeWord {e : Endian} {m : Memory} {a b w : Word} (hm : m.wf = true) (ha : aligned a = true)
    (hb : aligned b = true) :
    (m.writeWord e a w).readWord e b = if b = a then w else m.readWord e b := by
  unfold Memory.readWord
  split
  case isTrue hba =>
    subst hba
    have hbyte (i : Nat) (hi : i < 4) : (m.writeWord e b w).read (b.toNat + i) = byteOfWord e w i :=
      Memory.read_writeWord_inside hm ha hi
    have hbyte0 : (m.writeWord e b w).read b.toNat = byteOfWord e w 0 := hbyte 0 (by decide)
    rw [hbyte0, hbyte 1 (by decide), hbyte 2 (by decide), hbyte 3 (by decide), wordOfBytes_byteOfWord]
  case isFalse hba =>
    have hne : b.toNat ≠ a.toNat := fun h => hba (BitVec.eq_of_toNat_eq h)
    have hamod := (aligned_iff a).mp ha
    have hbmod := (aligned_iff b).mp hb
    rw [Memory.read_writeWord_outside (by omega), Memory.read_writeWord_outside (by omega),
      Memory.read_writeWord_outside (by omega), Memory.read_writeWord_outside (by omega)]

theorem Memory.readWord_writeWord_self {e : Endian} {m : Memory} {a w : Word} (hm : m.wf = true)
    (ha : aligned a = true) : (m.writeWord e a w).readWord e a = w := by
  rw [Memory.readWord_writeWord hm ha ha, if_pos rfl]

/-- Settles O17: both accesses succeed at an aligned address, and the read gives the word back
(`Memory.readWord_writeWord_self`). -/
theorem wordWriteReadRoundTrip : Obligations.WordWriteReadRoundTrip := fun _ _ _ _ hm ha =>
  ⟨_, memWrite_of_aligned ha, memRead_eq_some.mpr ⟨ha, Memory.readWord_writeWord_self hm ha⟩⟩

/-- Settles O16: a misaligned write is refused before any byte; an aligned one is `Memory.writeWord`, whose four bytes are
`Memory.read_writeWord_inside` and whose frame is `Memory.read_writeWord_outside`. -/
theorem wordWriteSetsFourBytes : Obligations.WordWriteSetsFourBytes := by
  intro m a w hm
  refine ⟨fun ha e => ?_, fun ha => ?_⟩
  · have hnone := (memWrite_eq_none (e := e) (m := m) (w := w)).mpr ((aligned_eq_false_iff a).mpr ha)
    refine ⟨hnone, ?_, ?_⟩
    · simp only [Memory.access, hnone]
    · simp [Memory.access_faults, aligned_eq_false_iff, ha]
  · have haligned := (aligned_iff a).mpr ha
    refine ⟨Nat.le_of_lt_succ (aligned_no_wrap haligned), fun e =>
      ⟨_, memWrite_of_aligned haligned, fun i hi => ?_, fun k => Memory.read_writeWord_outside⟩⟩
    rw [Memory.read_writeWord_inside hm haligned hi]
    cases e with
    | little => rfl
    | big => exact congrArg (w.extractLsb' · 8) (Nat.mul_sub 8 3 i)

/-! ## `lw` and `sw` (43_load_store.md R170 to R172) -/

/-- The state a load or a store at a misaligned effective address leaves (R54). -/
def State.misalignedData (s : State) (rs : RegIdx) (imm : BitVec 16) : State :=
  s.raise [{ kind := .misalignedAccess, stage := .mem, info := effectiveAddress s rs imm }]

/-- The state a store at an aligned effective address leaves (R172). -/
def State.stored (e : Endian) (s : State) (rt rs : RegIdx) (imm : BitVec 16) : State :=
  { s with dmem := s.dmem.writeWord e (effectiveAddress s rs imm) (s.reg rt) }.advance

@[simp] theorem State.reg_stored (e : Endian) (s : State) (rt rs : RegIdx) (imm : BitVec 16) (r : RegIdx) :
    (s.stored e rt rs imm).reg r = s.reg r := rfl

@[simp] theorem effectiveAddress_stored (e : Endian) (s : State) (rt rs : RegIdx) (imm : BitVec 16) :
    effectiveAddress (s.stored e rt rs imm) rs imm = effectiveAddress s rs imm := rfl

/-- What a load does, by its effective address. -/
theorem loadWord_eq (e : Endian) (rt rs : RegIdx) (imm : BitVec 16) {s : State} (hf : s.fault = none) :
    loadWord e rt rs imm s = .next
      (if aligned (effectiveAddress s rs imm) = true then
        (s.setReg rt (s.dmem.readWord e (effectiveAddress s rs imm))).advance
      else s.misalignedData rs imm) := by
  unfold loadWord memRead
  split_ifs
  · exact writeBack_of_none hf
  · exact ifRunning_of_none hf

/-- What a store does, by its effective address. -/
theorem storeWord_eq (e : Endian) (rt rs : RegIdx) (imm : BitVec 16) {s : State} (hf : s.fault = none) :
    storeWord e rt rs imm s = .next
      (if aligned (effectiveAddress s rs imm) = true then s.stored e rt rs imm else s.misalignedData rs imm) := by
  unfold storeWord memWrite
  split_ifs <;> exact ifRunning_of_none hf

theorem exec_lw_eq (rt rs : RegIdx) (imm : BitVec 16) (s : State) :
    exec (.lw rt rs imm) s = loadWord Config.machine.dmemEndian rt rs imm s := rfl

theorem exec_sw_eq (rt rs : RegIdx) (imm : BitVec 16) (s : State) :
    exec (.sw rt rs imm) s = storeWord Config.machine.dmemEndian rt rs imm s := rfl

/-- Settles O23: both instructions take the second branch of `loadWord_eq` and `storeWord_eq`, which is the same state. -/
theorem misalignedLoadAndStoreFault : Obligations.MisalignedLoadAndStoreFault := by
  intro rt rs imm s hf hmod i hi
  have hea : ¬ aligned (effectiveAddress s rs imm) = true := fun h => hmod ((aligned_iff _).mp h)
  obtain rfl | rfl : i = .lw rt rs imm ∨ i = .sw rt rs imm := by simpa using hi
  · rw [exec_lw_eq, loadWord_eq _ _ _ _ hf, if_neg hea]
    rfl
  · rw [exec_sw_eq, storeWord_eq _ _ _ _ hf, if_neg hea]
    rfl

/-- Settles O25: `sw` leaves the registers, so `lw` has the same effective address, and there the memory `sw` leaves holds
the stored register's value (`Memory.readWord_writeWord_self`). -/
theorem storeThenLoadReturnsTheWord : Obligations.StoreThenLoadReturnsTheWord := by
  intro rt rs dst imm s hf hm hmod
  have hea : aligned (effectiveAddress s rs imm) = true := (aligned_iff _).mpr hmod
  have hstore := storeWord_eq Config.machine.dmemEndian rt rs imm hf
  rw [if_pos hea] at hstore
  have hword : (s.stored Config.machine.dmemEndian rt rs imm).dmem.readWord Config.machine.dmemEndian
      (effectiveAddress s rs imm) = s.reg rt := Memory.readWord_writeWord_self hm hea
  have hload := loadWord_eq Config.machine.dmemEndian dst rs imm
    (s := s.stored Config.machine.dmemEndian rt rs imm) hf
  rw [effectiveAddress_stored, if_pos hea, hword] at hload
  exact ⟨_, _, hstore, hload, fun r => State.reg_setReg ..⟩

end Sys2Proof.Machine
end

section
/-!
PROOFS. The byte order of the memories cannot be observed (20_memory.md R58): memories that hold the same words, each in its
own byte order, answer every access alike and go on holding the same words, and a clock step sees them through accesses
only.
-/

namespace Sys2Proof

/-- A configuration with other byte orders. -/
def Config.withOrders (c : Config) (imemEndian dmemEndian : Endian) : Config :=
  { c with imemEndian := imemEndian, dmemEndian := dmemEndian }

end Sys2Proof

namespace Sys2Proof.Machine

/-! ## Accesses to memories that hold the same words -/

section
variable {e₁ e₂ : Endian} {m₁ m₂ : Memory}

theorem SameWords.memRead_eq (h : SameWords e₁ m₁ e₂ m₂) (a : Word) : memRead e₁ m₁ a = memRead e₂ m₂ a := by
  unfold memRead
  split_ifs with ha
  · rw [h a ha]
  · rfl

theorem SameWords.writeWord (h : SameWords e₁ m₁ e₂ m₂) (hm₁ : m₁.wf = true) (hm₂ : m₂.wf = true) {a : Word}
    (ha : aligned a = true) (w : Word) : SameWords e₁ (m₁.writeWord e₁ a w) e₂ (m₂.writeWord e₂ a w) := by
  intro b hb
  rw [Memory.readWord_writeWord hm₁ ha hb, Memory.readWord_writeWord hm₂ ha hb, h b hb]

theorem SameWords.access_dataOr (h : SameWords e₁ m₁ e₂ m₂) (a w : Word) (rd wr : Bool) (drawn : Word) :
    (m₁.access e₁ a w rd wr).dataOr drawn = (m₂.access e₂ a w rd wr).dataOr drawn := by
  rw [Memory.access_dataOr, Memory.access_dataOr]
  split_ifs with hread
  · exact h a hread.2.2
  · rfl

theorem SameWords.access_memOr (h : SameWords e₁ m₁ e₂ m₂) (hm₁ : m₁.wf = true) (hm₂ : m₂.wf = true) (a w : Word)
    (rd wr : Bool) :
    SameWords e₁ ((m₁.access e₁ a w rd wr).memOr m₁) e₂ ((m₂.access e₂ a w rd wr).memOr m₂) := by
  rw [Memory.access_memOr, Memory.access_memOr]
  split_ifs with hwrite
  · exact h.writeWord hm₁ hm₂ hwrite.2.2 w
  · exact h

end

/-! ## A clock step in two byte orders

The configuration `c` and the state `s.withMemories im dm` are one side; `c.withOrders ei ed` and `s` are the other. -/

/-- A state with other memories. -/
def State.withMemories (s : State) (imem dmem : Memory) : State := { s with imem := imem, dmem := dmem }

section
variable {c : Config} {ei ed : Endian} {s : State} {im dm : Memory}

/-- Which faults a step raises depends on the addresses, not on what the memories hold. -/
theorem stepFaults_withMemories :
    stepFaults c (s.withMemories im dm) = stepFaults (c.withOrders ei ed) s := by
  rw [stepFaults_eq, stepFaults_eq, dmemAccess, dmemAccess, Memory.access_faults, Memory.access_faults, fetchFaults_eq,
    fetchFaults_eq]
  rfl

theorem ifIdNext_withMemories (hi : SameWords ei s.imem c.imemEndian im) :
    ifIdNext c (s.withMemories im dm) = ifIdNext (c.withOrders ei ed) s := by
  have hfetch : fetchWord c (s.withMemories im dm) = fetchWord (c.withOrders ei ed) s := (hi.memRead_eq s.pc).symm
  rw [ifIdNext, ifIdNext, hfetch]
  rfl

theorem memWbNext_withMemories (hd : SameWords ed s.dmem c.dmemEndian dm) :
    memWbNext c (s.withMemories im dm) = memWbNext (c.withOrders ei ed) s :=
  congrArg (fun w => { memWbNext (c.withOrders ei ed) s with readData := w }) (hd.access_dataOr ..).symm

/-- The squash reads no memory and no byte order. -/
theorem squash_withMemories (t : State) (im' dm' : Memory) :
    squash c (s.withMemories im dm) (t.withMemories im' dm') =
      (squash (c.withOrders ei ed) s t).withMemories im' dm' := by
  change squash (c.withOrders ei ed) s (t.withMemories im' dm') = _
  unfold squash
  split_ifs <;> rfl

/-- A step that commits writes the same values on both sides, but for the data memory. -/
theorem commit_withMemories (hi : SameWords ei s.imem c.imemEndian im) (hd : SameWords ed s.dmem c.dmemEndian dm) :
    commit c (s.withMemories im dm) =
      (commit (c.withOrders ei ed) s).withMemories im ((dmemAccess c (s.withMemories im dm)).memOr dm) := by
  rw [commit, commit, ← squash_withMemories, ifIdNext_withMemories hi, memWbNext_withMemories hd]
  rfl

/-- The clock step keeps the relation of the two sides. -/
theorem clock_withMemories {t : State} (hs : s.dmem.wf = true) (hdm : dm.wf = true)
    (hi : SameWords ei s.imem c.imemEndian im) (hd : SameWords ed s.dmem c.dmemEndian dm)
    (ht : clock (c.withOrders ei ed) s = .next t) :
    ∃ dm', clock c (s.withMemories im dm) = .next (t.withMemories im dm') ∧
      t.dmem.wf = true ∧ dm'.wf = true ∧ SameWords ei t.imem c.imemEndian im ∧ SameWords ed t.dmem c.dmemEndian dm' := by
  obtain ⟨hf, hcases⟩ := clock_cases ht
  have hclock := clock_of_none (c := c) (s := s.withMemories im dm) hf
  rw [stepFaults_withMemories (ei := ei) (ed := ed)] at hclock
  obtain ⟨hnil, rfl⟩ | ⟨hne, rfl⟩ := hcases
  · rw [if_pos hnil, commit_withMemories hi hd] at hclock
    refine ⟨_, hclock, ?_, Memory.wf_access hdm, ?_, ?_⟩
    · rw [commit_dmem]
      exact Memory.wf_access hs
    · rwa [commit_imem]
    · rw [commit_dmem]
      exact hd.access_memOr hs hdm _ _ _ _
  · rw [if_neg hne] at hclock
    exact ⟨dm, hclock, hs, hdm, hi, hd⟩

end

/-- Settles O56: the first configuration is the second with the first's byte orders, so the two steps are the two sides of
`clock_withMemories`. -/
theorem byteOrderIsUnobservable : Obligations.ByteOrderIsUnobservable := by
  intro c₁ c₂ s t im dm hc hs hdm hi hd ht
  change c₂.withOrders c₁.imemEndian c₁.dmemEndian = c₁ at hc
  generalize c₁.imemEndian = ei, c₁.dmemEndian = ed at hc hi hd ⊢
  subst hc
  exact clock_withMemories hs hdm hi hd ht

end Sys2Proof.Machine
end

section
/-!
PROOFS. Encoding and decoding (30_encoding.md): which row of R76 and R77 the decoder takes, said once for the opcode and once
for the funct; and that a word's fields, put back in its layout, are the word.
-/

namespace Sys2Proof

/-! ## What the encoder writes is read back -/

theorem decode_rWord (fn : BitVec 6) (rd rs rt : RegIdx) :
    decode (rWord fn rd rs rt) = decodeRType (rWord fn rd rs rt) := by
  rw [decode, opcodeOf_rWord, if_pos rfl]

/-- The decoder reads back every instruction: the layout's fields are the operands, and the opcode and the funct select its
row. -/
theorem decode_encode (i : Instr) : decode (encode i) = .instr i := by
  cases i with
  | add | sub | and | or | slt | nor =>
    rw [encode, decode_rWord]
    simp [decodeRType, fnAdd, fnSub, fnAnd, fnOr, fnSlt, fnNor]
  | lw | sw | beq | addi =>
    rw [encode]
    simp [decode, opRType, opLw, opSw, opBeq, opAddi]

/-- Settles O2: `decode_encode`, a case for each instruction of the table. -/
theorem decodeEncodeRoundTrip : Obligations.DecodeEncodeRoundTrip := decode_encode

/-- A word written out as a number is read as the instruction it encodes. -/
theorem encode_and_decode_of_encode_eq {i : Instr} {w : Word} (h : encode i = w) :
    encode i = w ∧ decode w = .instr i := ⟨h, h ▸ decode_encode i⟩

/-- Settles O1: the six words are computed; that they decode is the round trip. -/
theorem sourceExampleEncodings : Obligations.SourceExampleEncodings :=
  ⟨encode_and_decode_of_encode_eq rfl, encode_and_decode_of_encode_eq rfl, encode_and_decode_of_encode_eq rfl,
    encode_and_decode_of_encode_eq rfl, encode_and_decode_of_encode_eq rfl, encode_and_decode_of_encode_eq rfl⟩

/-! ## What the decoder reads is the word -/

/-- The fields of an R-type word are all of it but `shamt` (R72, R75). -/
theorem rWord_fields {w : Word} (h : opcodeOf w = opRType) :
    rWord (functOf w) (rdOf w) (rsOf w) (rtOf w) = w &&& ~~~0x000007C0#32 := by
  rw [rWord, ← h]
  apply BitVec.eq_of_getLsbD_eq
  intro i hi
  simp only [opcodeOf, rsOf, rtOf, rdOf, functOf, BitVec.getLsbD_append, BitVec.getLsbD_extractLsb']
  interval_cases i <;> simp

/-- The fields of an I-type word are all of it (R73). -/
theorem iWord_fields (w : Word) : iWord (opcodeOf w) (rsOf w) (rtOf w) (immOf w) = w := by
  apply BitVec.eq_of_getLsbD_eq
  intro i hi
  simp only [iWord, opcodeOf, rsOf, rtOf, immOf, BitVec.getLsbD_append, BitVec.getLsbD_extractLsb']
  interval_cases i <;> simp

/-- What the rows of R77 can read: an instruction, whose word is put together from `w`'s fields, or an unsupported funct. -/
theorem decodeRType_cases (w : Word) :
    (∃ i, decodeRType w = .instr i ∧ encode i = rWord (functOf w) (rdOf w) (rsOf w) (rtOf w)) ∨
      (functOf w ∉ [fnAdd, fnSub, fnAnd, fnOr, fnSlt, fnNor] ∧ decodeRType w = .unsupportedFunct (functOf w)) := by
  unfold decodeRType
  split_ifs with hadd hsub hand hor hslt hnor
  · exact .inl ⟨_, rfl, by rw [encode, hadd]⟩
  · exact .inl ⟨_, rfl, by rw [encode, hsub]⟩
  · exact .inl ⟨_, rfl, by rw [encode, hand]⟩
  · exact .inl ⟨_, rfl, by rw [encode, hor]⟩
  · exact .inl ⟨_, rfl, by rw [encode, hslt]⟩
  · exact .inl ⟨_, rfl, by rw [encode, hnor]⟩
  · exact .inr ⟨by simp [hadd, hsub, hand, hor, hslt, hnor], rfl⟩

/-- What the rows of R76 can read, beside the R-type words: an instruction, whose word is put together from `w`'s fields, or
a reserved opcode. -/
theorem decode_cases {w : Word} (h : opcodeOf w ≠ opRType) :
    (∃ i, decode w = .instr i ∧ encode i = iWord (opcodeOf w) (rsOf w) (rtOf w) (immOf w)) ∨
      (opcodeOf w ∉ [opRType, opLw, opSw, opBeq, opAddi] ∧ decode w = .reservedOpcode (opcodeOf w)) := by
  unfold decode
  rw [if_neg h]
  split_ifs with hlw hsw hbeq haddi
  · exact .inl ⟨_, rfl, by rw [encode, hlw]⟩
  · exact .inl ⟨_, rfl, by rw [encode, hsw]⟩
  · exact .inl ⟨_, rfl, by rw [encode, hbeq]⟩
  · exact .inl ⟨_, rfl, by rw [encode, haddi]⟩
  · exact .inr ⟨by simp [h, hlw, hsw, hbeq, haddi], rfl⟩

/-- Every word is an instruction's own word, but for the `shamt` field of an R-type word, or has a funct or an opcode in no
row; and it is read as such. -/
theorem decode_trichotomy (w : Word) :
    (∃ i, decode w = .instr i ∧ encode i = if opcodeOf w = opRType then w &&& ~~~0x000007C0#32 else w) ∨
      (opcodeOf w = opRType ∧ functOf w ∉ [fnAdd, fnSub, fnAnd, fnOr, fnSlt, fnNor] ∧
        decode w = .unsupportedFunct (functOf w)) ∨
      (opcodeOf w ∉ [opRType, opLw, opSw, opBeq, opAddi] ∧ decode w = .reservedOpcode (opcodeOf w)) := by
  by_cases hop : opcodeOf w = opRType
  · have hdecode : decode w = decodeRType w := if_pos hop
    rw [hdecode, if_pos hop, ← rWord_fields hop]
    obtain hinstr | ⟨hfunct, hread⟩ := decodeRType_cases w
    · exact .inl hinstr
    · exact .inr (.inl ⟨hop, hfunct, hread⟩)
  · rw [if_neg hop]
    obtain ⟨i, hread, hword⟩ | hreserved := decode_cases hop
    · exact .inl ⟨i, hread, hword.trans (iWord_fields w)⟩
    · exact .inr (.inr hreserved)

/-- Settles O3: both clauses are `decode_trichotomy`, since a word is read in one way. -/
theorem everyWordIsReadForWhatItIs : Obligations.EveryWordIsReadForWhatItIs := by
  refine ⟨fun w i hi => ?_, fun w => ?_⟩
  · obtain ⟨j, hj, hword⟩ | ⟨-, -, hread⟩ | ⟨-, hread⟩ := decode_trichotomy w
    · obtain rfl : j = i := by simpa [hj] using hi
      exact hword
    · cases hread.symm.trans hi
    · cases hread.symm.trans hi
  · exact (decode_trichotomy w).imp_left fun ⟨i, hi, _⟩ => ⟨i, hi⟩

end Sys2Proof
end

section
/-!
PROOFS. The control decoder and the ALU's two tables (30_encoding.md R80 to R83, 40_units.md R97, R108 to R113), and what a
word in no row of them does in the reference step (41_pipeline.md R120).
-/

namespace Sys2Proof.Machine

/-! ## The control decoder -/

theorem controlRow_eq_none {op : BitVec 6} (h : op ∉ [opRType, opLw, opSw, opBeq, opAddi]) : controlRow op = none := by
  simp only [List.mem_cons, List.not_mem_nil, or_false, not_or] at h
  obtain ⟨hr, hlw, hsw, hbeq, haddi⟩ := h
  rw [controlRow, if_neg hr, if_neg hlw, if_neg hsw, if_neg hbeq, if_neg haddi]

/-- Settles O4: the five rows, and `Ctl0` for every other opcode. -/
theorem controlBundleOfEveryOpcode : Obligations.ControlBundleOfEveryOpcode := by
  intro op
  split_ifs with hr hlw hsw hbeq haddi
  · exact hr ▸ controlBundle_opRType
  · exact hlw ▸ controlBundle_opLw
  · exact hsw ▸ controlBundle_opSw
  · exact hbeq ▸ controlBundle_opBeq
  · exact haddi ▸ controlBundle_opAddi
  · exact control_of_reserved (controlRow_eq_none (by simp [opRType, opLw, opSw, opBeq, opAddi, *]))

/-- Settles O5: the unit's table is `aluControl` as it is defined, and a bundle with ALUOp 11 would not be legal. -/
theorem aluControlMap : Obligations.AluControlMap := fun _ _ =>
  ⟨rfl, rfl, rfl, rfl, rfl, rfl, rfl, rfl, rfl, fun op => Ctl.Legal.aluOp_ne_three (controlBundle_cases op)⟩

/-! ## The ALU's tables -/

theorem aluOperation_eq_none {code : BitVec 4} (h : code ∉ [codeAnd, codeOr, codeAdd, codeSub, codeSlt, codeNor]) :
    aluOperation code = none := by
  simp only [List.mem_cons, List.not_mem_nil, or_false, not_or] at h
  obtain ⟨hand, hor, hadd, hsub, hslt, hnor⟩ := h
  rw [aluOperation, if_neg hand, if_neg hor, if_neg hadd, if_neg hsub, if_neg hslt, if_neg hnor]

theorem alu_of_unsupported {code : BitVec 4} (h : aluOperation code = none) (a b drawn : Word) :
    alu code a b drawn = AluOut.of drawn (some (.unsupportedALUCode, code.toNat)) := by
  simp only [alu, h]

theorem aluControlRType_eq_unsupported {c : Config} {f : BitVec 6} (h : f ∉ [fnAdd, fnSub, fnAnd, fnOr, fnSlt])
    (hnor : f = fnNor → c.norEn = false) : aluControlRType c f = .unsupported .unsupportedFunct f.toNat := by
  simp only [List.mem_cons, List.not_mem_nil, or_false, not_or] at h
  obtain ⟨hadd, hsub, hand, hor, hslt⟩ := h
  have hnor' : ¬ (f = fnNor ∧ c.norEn = true) := fun ⟨hf, hen⟩ => Bool.false_ne_true ((hnor hf).symm.trans hen)
  rw [aluControlRType, if_neg hadd, if_neg hsub, if_neg hand, if_neg hor, if_neg hslt, if_neg hnor']

theorem aluControl_rType (c : Config) (f : BitVec 6) : aluControl c 0b10#2 f = aluControlRType c f := rfl

theorem aluPath_of_unsupported {c : Config} {op : BitVec 2} {f : BitVec 6} {kind : DiagKind} {detail : Nat}
    (h : aluControl c op f = .unsupported kind detail) (a b drawn : Word) :
    aluPath c a b op f drawn = AluOut.of drawn (some (kind, detail)) := by
  simp only [aluPath, h]

/-- Settles O10: neither table has the row, so the output is the drawn value's. -/
theorem unsupportedAluInputDraws : Obligations.UnsupportedAluInputDraws :=
  ⟨fun _ a b d hcode => alu_of_unsupported (aluOperation_eq_none hcode) a b d,
    fun c a b d f hfunct hnor =>
      aluPath_of_unsupported ((aluControl_rType c f).trans (aluControlRType_eq_unsupported hfunct hnor)) a b d⟩

/-! ## A reserved opcode in the reference step -/

section
variable {w : Word} (h : controlRow (opcodeOf w) = none)
include h

theorem seqAccess_of_reserved (c : Config) (s : State) : seqAccess c w s = .done s.dmem none := by
  rw [seqAccess, control_of_reserved h]; rfl

theorem seqPc_of_reserved (c : Config) (s : State) : seqPc c w s = pcPlus4 s.pc := by
  rw [seqPc, control_of_reserved h]; rfl

theorem seqFile_of_reserved (c : Config) (s : State) : seqFile c w s = s.x := by
  rw [seqFile, control_of_reserved h]; rfl

/-- The ALU adds, so that the one diagnostic is the decoder's. -/
theorem seqAlu_diags_of_reserved (c : Config) (s : State) : (seqAlu c w s).diags s = [] := by
  rw [seqAlu, control_of_reserved h]; rfl

theorem controlDiags_of_reserved (s : State) :
    controlDiags (opcodeOf w) s = [s.diag .id .unknownOpcode (opcodeOf w).toNat] := by
  simp only [controlDiags, h]

end

/-- Settles O27: with `Ctl0` the reference step accesses no memory, writes no register and takes no branch. -/
theorem reservedOpcodeIsNoOp : Obligations.ReservedOpcodeIsNoOp := by
  intro c w s hs hop
  have hrow := controlRow_eq_none hop
  have hfaults : seqFaults c w s = [] := by rw [seqFaults, seqAccess_of_reserved hrow]; rfl
  rw [seqWord, ifRunning_of_none hs, if_pos hfaults, seqCommit, seqFile_of_reserved hrow, seqPc_of_reserved hrow,
    seqAccess_of_reserved hrow, seqAlu_diags_of_reserved hrow, controlDiags_of_reserved hrow]
  rfl

end Sys2Proof.Machine
end

section
/-!
PROOFS. A clock step that nothing stands in the way of: no fault, no stall, no redirect. It fetches, and every latch passes
its instruction on (41_pipeline.md R126, 70_reset_and_hazards.md R241). Instructions that neither access memory nor branch
make only such steps; what each of them does is one register write, four steps after it was fetched.
-/

namespace Sys2Proof.Machine

/-! ## Unimpeded steps -/

/-- The step from `s` commits, the PC goes on to the next word, and no slot is held or squashed. -/
structure State.Unimpeded (c : Config) (s : State) : Prop where
  fault : s.fault = none
  stepFaults : stepFaults c s = []
  stall : stall c s = false
  pcSrc : pcSrc s = false

section
variable {c : Config} {s : State} (h : s.Unimpeded c)
include h

theorem State.Unimpeded.clock_eq : clock c s = .next (commit c s) := by
  rw [clock_of_none h.fault, if_pos h.stepFaults]

theorem State.Unimpeded.commit_pc : (commit c s).pc = s.pc + 4#32 := by
  simp only [Machine.commit_pc, pcNext, h.pcSrc, h.stall]
  rfl

/-- IF latches the word at the PC; a misaligned PC would have faulted. -/
theorem State.Unimpeded.commit_ifid_instr : (commit c s).ifid.instr = codeWord c s s.pc := by
  have hnofault : fetchFaults c s = [] := by
    have hfaults := h.stepFaults
    rw [stepFaults_eq] at hfaults
    exact (List.append_eq_nil_iff.mp hfaults).2
  have haligned : aligned s.pc = true := by simpa [fetchFaults_eq, h.stall] using hnofault
  simp [commit_ifid, ifIdNext, fetchWord, codeWord, memRead_of_aligned haligned, h.pcSrc, h.stall]

theorem State.Unimpeded.commit_idex : (commit c s).idex = idExNext c s := by
  simp [Machine.commit_idex, h.pcSrc]

theorem State.Unimpeded.idExNext_ctl : (idExNext c s).ctl = controlBundle (opcodeOf s.ifid.instr) := by
  rw [idExNext, h.stall]
  rfl

theorem State.Unimpeded.commit_exmem : (commit c s).exmem = exMemNext c s := by
  simp [Machine.commit_exmem, h.pcSrc]

end

/-! ## Where the instruction in a latch writes -/

/-- The destination of the instruction in MEM/WB; register 0, to which a write is none, where it writes no register. -/
def MemWb.dest (l : MemWb) : RegIdx := if l.regWrite then l.writeReg else 0#5

/-- The destination of the instruction in EX/MEM. -/
def ExMem.dest (l : ExMem) : RegIdx := if l.regWrite then l.writeReg else 0#5

/-- The destination of the instruction in ID/EX. -/
def IdEx.dest (l : IdEx) : RegIdx := if l.ctl.regWrite then mux2 l.rt l.rd l.ctl.regDst else 0#5

/-- WB writes the destination of the instruction in MEM/WB and nothing else. -/
theorem wbFile_eq_write (s : State) : wbFile s = s.x.write s.memwb.dest (wbValue s) := by
  unfold wbFile RegFile.access MemWb.dest
  cases s.memwb.regWrite <;> rfl

theorem memWbNext_dest (c : Config) (s : State) : (memWbNext c s).dest = s.exmem.dest := rfl

theorem exMemNext_dest (c : Config) (s : State) : (exMemNext c s).dest = s.idex.dest := rfl

theorem State.Unimpeded.idExNext_dest_rType {c : Config} {s : State} (h : s.Unimpeded c)
    (hop : opcodeOf s.ifid.instr = opRType) : (idExNext c s).dest = rdOf s.ifid.instr := by
  rw [IdEx.dest, h.idExNext_ctl, hop]
  rfl

/-! ## Instructions that neither access memory nor branch -/

/-- A bundle with no memory access and no branch. -/
def Ctl.Passive (k : Ctl) : Prop := k.memRead = false ∧ k.memWrite = false ∧ k.branch = false

/-- EX/MEM holds no memory access and no branch. -/
def ExMem.Passive (l : ExMem) : Prop := l.memRead = false ∧ l.memWrite = false ∧ l.branch = false

/-- At an aligned PC, with no memory access and no branch in EX or MEM. -/
structure State.Passive (s : State) : Prop where
  fault : s.fault = none
  pc_aligned : aligned s.pc = true
  idex : s.idex.ctl.Passive
  exmem : s.exmem.Passive

theorem ctl0_passive : ctl0.Passive := ⟨rfl, rfl, rfl⟩

theorem ctlRType_passive : ctlRType.Passive := ⟨rfl, rfl, rfl⟩

theorem controlBundle_passive_of_rType {w : Word} (h : opcodeOf w = opRType) :
    (controlBundle (opcodeOf w)).Passive := by
  rw [h, controlBundle_opRType]
  exact ctlRType_passive

theorem nopWord_passive : (controlBundle (opcodeOf nopWord)).Passive := ctlRType_passive

theorem State.EmptyPipeline.passive {s : State} (h : s.EmptyPipeline) (hpc : aligned s.pc = true) : s.Passive where
  fault := h.fault
  pc_aligned := hpc
  idex := h.idex ▸ ctl0_passive
  exmem := h.exmem ▸ ⟨rfl, rfl, rfl⟩

section
variable {s : State} (h : s.Passive) (c : Config)
include h

theorem State.Passive.dmemAccess_eq : dmemAccess c s = .done s.dmem none := by
  obtain ⟨hread, hwrite, -⟩ := h.exmem
  rw [dmemAccess, hread, hwrite]
  rfl

theorem State.Passive.unimpeded : s.Unimpeded c where
  fault := h.fault
  stepFaults := by
    rw [stepFaults_eq, h.dmemAccess_eq, fetchFaults_eq, if_neg (by simp [h.pc_aligned])]
    rfl
  stall := by
    obtain ⟨hread, -, -⟩ := h.idex
    rw [Machine.stall, hread]
    rfl
  pcSrc := by
    obtain ⟨-, -, hbranch⟩ := h.exmem
    rw [Machine.pcSrc, hbranch]
    rfl

theorem State.Passive.commit_dmem : (commit c s).dmem = s.dmem := by
  rw [Machine.commit_dmem, h.dmemAccess_eq]
  rfl

theorem State.Passive.commit (hword : (controlBundle (opcodeOf s.ifid.instr)).Passive) : (commit c s).Passive where
  fault := by rw [commit_fault, h.fault]
  pc_aligned := by rw [(h.unimpeded c).commit_pc]; exact aligned_pcPlus4 h.pc_aligned
  idex := by rw [(h.unimpeded c).commit_idex, (h.unimpeded c).idExNext_ctl]; exact hword
  exmem := by rw [(h.unimpeded c).commit_exmem]; exact h.idex

end

/-! ## An R-type word alone in the pipeline -/

theorem codeWord_commit (c : Config) (s : State) (a : Word) : codeWord c (commit c s) a = codeWord c s a := by
  rw [codeWord, commit_imem, codeWord]

/-- Three steps take the destination of the word in IF/ID to MEM/WB. -/
theorem memwb_dest_of_rType {c : Config} {s : State} (h : s.Unimpeded c) (h₁ : (commit c s).Unimpeded c)
    (hop : opcodeOf s.ifid.instr = opRType) :
    (commit c (commit c (commit c s))).memwb.dest = rdOf s.ifid.instr := by
  rw [commit_memwb, memWbNext_dest, h₁.commit_exmem, exMemNext_dest, h.commit_idex, h.idExNext_dest_rType hop]

/-- A step in which WB writes register 0 leaves the register file. -/
theorem commit_x_of_dest_zero {c : Config} {s : State} (h : s.memwb.dest = 0#5) : (commit c s).x = s.x := by
  rw [commit_x, wbFile_eq_write, h, RegFile.write_zero]

theorem subset_commit_diagLog {c : Config} {s : State} : s.diagLog ⊆ (commit c s).diagLog := by
  rw [commit_diagLog]
  exact List.subset_append_left ..

theorem stepDiags_subset_commit_diagLog {c : Config} {s : State} : stepDiags c s ⊆ (commit c s).diagLog := by
  rw [commit_diagLog]
  exact List.subset_append_right ..

/-- The word `w` is in ID, and no older instruction writes a register or accesses memory or branches. -/
structure State.AloneInDecode (s : State) (w : Word) : Prop where
  passive : s.Passive
  instr : s.ifid.instr = w
  idex : s.idex.dest = 0#5
  exmem : s.exmem.dest = 0#5
  memwb : s.memwb.dest = 0#5

/-- From an empty pipeline the first step fetches `w`; the zero word of the reset IF/ID, which it decodes, writes register
0. -/
theorem State.EmptyPipeline.aloneInDecode {c : Config} {s : State} (h : s.EmptyPipeline) (hpc : aligned s.pc = true) :
    (commit c s).AloneInDecode (codeWord c s s.pc) := by
  have hpassive := h.passive hpc
  have hu := hpassive.unimpeded c
  have hzero : opcodeOf s.ifid.instr = opRType := by rw [h.ifid]; decide
  exact {
    passive := hpassive.commit c (controlBundle_passive_of_rType hzero)
    instr := hu.commit_ifid_instr
    idex := by rw [hu.commit_idex, hu.idExNext_dest_rType hzero, h.ifid]; decide
    exmem := by rw [hu.commit_exmem, exMemNext_dest, h.idex]; rfl
    memwb := by rw [commit_memwb, memWbNext_dest, h.exmem]; rfl }

/-- At the start of the step `w` is in EX. -/
structure State.InExecute (s : State) (w : Word) : Prop where
  ctl : s.idex.ctl = controlBundle (opcodeOf w)
  funct : s.idex.funct = functOf w

theorem State.AloneInDecode.inExecute {c : Config} {s : State} {w : Word} (h : s.AloneInDecode w) :
    (commit c s).InExecute w := by
  obtain ⟨hp, rfl, -, -, -⟩ := h
  have hu := hp.unimpeded c
  exact ⟨by rw [hu.commit_idex, hu.idExNext_ctl], by rw [hu.commit_idex]; rfl⟩

/-- An R-type word alone in the pipeline, whatever its funct, in ID with two nops behind it: in four more steps it writes
some value to its rd, and nothing else is written; the diagnostics of its EX step, the second of the four, are logged. -/
theorem State.AloneInDecode.run_rType {c : Config} {s : State} {w : Word} (h : s.AloneInDecode w)
    (hop : opcodeOf w = opRType) (hnop : codeWord c s s.pc = nopWord) (hnop' : codeWord c s (s.pc + 4#32) = nopWord) :
    ∃ u v, clockRun c 4 s = .next u ∧ u.x = s.x.write (rdOf w) v ∧ u.dmem = s.dmem ∧
      stepDiags c (commit c s) ⊆ u.diagLog := by
  obtain ⟨hp, rfl, hidex, hexmem, hmemwb⟩ := h
  have hu := hp.unimpeded c
  have hp₁ := hp.commit c (controlBundle_passive_of_rType hop)
  have hu₁ := hp₁.unimpeded c
  have hfetch : (commit c s).ifid.instr = nopWord := hu.commit_ifid_instr.trans hnop
  have hp₂ := hp₁.commit c (by rw [hfetch]; exact nopWord_passive)
  have hu₂ := hp₂.unimpeded c
  have hfetch' : (commit c (commit c s)).ifid.instr = nopWord := by
    rw [hu₁.commit_ifid_instr, codeWord_commit, hu.commit_pc, hnop']
  have hp₃ := hp₂.commit c (by rw [hfetch']; exact nopWord_passive)
  have hu₃ := hp₃.unimpeded c
  have hrun : clockRun c 4 s = .next (commit c (commit c (commit c (commit c s)))) := by
    rw [clockRun_succ hu.clock_eq, clockRun_succ hu₁.clock_eq, clockRun_succ hu₂.clock_eq, clockRun_succ hu₃.clock_eq,
      clockRun]
  have hdest₁ : (commit c s).memwb.dest = 0#5 := by rw [commit_memwb, memWbNext_dest, hexmem]
  have hdest₂ : (commit c (commit c s)).memwb.dest = 0#5 := by
    rw [commit_memwb, memWbNext_dest, hu.commit_exmem, exMemNext_dest, hidex]
  refine ⟨_, wbValue (commit c (commit c (commit c s))), hrun, ?x, ?dmem, ?log⟩
  case x =>
    rw [commit_x, wbFile_eq_write, memwb_dest_of_rType hu hu₁ hop, commit_x_of_dest_zero hdest₂,
      commit_x_of_dest_zero hdest₁, commit_x_of_dest_zero hmemwb]
  case dmem => rw [hp₃.commit_dmem, hp₂.commit_dmem, hp₁.commit_dmem, hp.commit_dmem]
  case log =>
    exact fun _ hd => subset_commit_diagLog (subset_commit_diagLog (stepDiags_subset_commit_diagLog hd))

/-- An unsupported funct in EX logs its diagnostic (30_encoding.md R83). -/
theorem State.InExecute.unsupportedFunct_mem_stepDiags {c : Config} {s : State} {w : Word} (h : s.InExecute w)
    (hop : opcodeOf w = opRType) (hfunct : functOf w ∉ [fnAdd, fnSub, fnAnd, fnOr, fnSlt, fnNor]) :
    s.diag .ex .unsupportedFunct (functOf w).toNat ∈ stepDiags c s := by
  have hcontrol : aluControl c s.idex.ctl.aluOp s.idex.funct = .unsupported .unsupportedFunct (functOf w).toNat := by
    rw [h.ctl, h.funct, hop]
    exact aluControlRType_eq_unsupported (fun hmem => hfunct (List.mem_append_left [fnNor] hmem))
      (fun hnor => absurd (by simp [hnor]) hfunct)
  refine List.mem_append_left _ (mem_aluOut_diags.mpr ⟨_, _, ?_, rfl⟩)
  rw [exAlu, aluPath_of_unsupported hcontrol]
  rfl

/-- Settles O54: the first step brings the word into ID alone (`State.EmptyPipeline.aloneInDecode`), and four more take it
to its register write (`State.AloneInDecode.run_rType`). -/
theorem loneUnsupportedFunctWritesADraw : Obligations.LoneUnsupportedFunctWritesADraw := by
  rintro c s w hempty hpc rfl hop hfunct hnops
  have hpassive := hempty.passive hpc
  have hu := hpassive.unimpeded c
  have hnop : codeWord c (commit c s) (commit c s).pc = nopWord := by
    rw [codeWord_commit, hu.commit_pc]
    exact hnops _ (by simp)
  have hnop' : codeWord c (commit c s) ((commit c s).pc + 4#32) = nopWord := by
    rw [codeWord_commit, hu.commit_pc, BitVec.add_assoc]
    exact hnops _ (by decide)
  have halone := hempty.aloneInDecode (c := c) hpc
  obtain ⟨u, v, hrun, hx, hdmem, hlog⟩ := halone.run_rType hop hnop hnop'
  have hx₀ : (commit c s).x = s.x := commit_x_of_dest_zero (by rw [hempty.memwb]; rfl)
  have hdiag := hlog (halone.inExecute.unsupportedFunct_mem_stepDiags hop hfunct)
  refine ⟨u, v, (clockRun_succ hu.clock_eq).trans hrun, hx.trans (by rw [hx₀]), hdmem.trans (hpassive.commit_dmem c), ?_⟩
  rwa [State.diag, commit_cycle, commit_cycle] at hdiag

end Sys2Proof.Machine
end

section
/-!
PROOFS. The ALU (40_units.md R97 to R104): its output at each code of its table, the zero flag over the result, the
difference that SUBTRACT makes, and the signed comparison that the sign bits decide.
-/

namespace Sys2Proof.Machine

/-! ## The zero flag (R101) -/

theorem zeroFlag_eq_true_iff {result : Word} : zeroFlag result = true ↔ result = 0#32 := beq_iff_eq

@[simp] theorem AluOut.of_result (result : Word) (diag : Option (DiagKind × Nat)) :
    (AluOut.of result diag).result = result := rfl

@[simp] theorem AluOut.of_diag (result : Word) (diag : Option (DiagKind × Nat)) :
    (AluOut.of result diag).diag = diag := rfl

@[simp] theorem AluOut.of_zero (result : Word) (diag : Option (DiagKind × Nat)) :
    (AluOut.of result diag).zero = zeroFlag result := rfl

theorem alu_of_operation {code : BitVec 4} {op : Word → Word → Word} (h : aluOperation code = some op)
    (a b drawn : Word) : alu code a b drawn = AluOut.of (op a b) none := by
  simp only [alu, h]

/-- The flag is computed over the result of the operation, or over the drawn value where the code has none. -/
theorem alu_zero (code : BitVec 4) (a b drawn : Word) :
    (alu code a b drawn).zero = zeroFlag (alu code a b drawn).result := by
  cases h : aluOperation code with
  | some op => rw [alu_of_operation h, AluOut.of_zero, AluOut.of_result]
  | none => rw [alu_of_unsupported h, AluOut.of_zero, AluOut.of_result]

/-- Settles O7: both outputs' flag is `zeroFlag` of their result (`alu_zero`, `aluPath_zero`). -/
theorem zeroFlagOverTheResult : Obligations.ZeroFlagOverTheResult :=
  ⟨fun code a b d => by rw [alu_zero, zeroFlag_eq_true_iff],
    fun c a b op f d => by rw [aluPath_zero, zeroFlag_eq_true_iff]⟩

/-! ## The rows of the ALU's table (R97) -/

theorem alu_and (a b drawn : Word) : alu 0b0000#4 a b drawn = AluOut.of (aluAnd a b) none :=
  alu_of_operation rfl a b drawn

theorem alu_or (a b drawn : Word) : alu 0b0001#4 a b drawn = AluOut.of (aluOr a b) none :=
  alu_of_operation rfl a b drawn

theorem alu_add (a b drawn : Word) : alu 0b0010#4 a b drawn = AluOut.of (aluAdd a b) none :=
  alu_of_operation rfl a b drawn

theorem alu_subtract (a b drawn : Word) : alu 0b0110#4 a b drawn = AluOut.of (aluSub a b) none :=
  alu_of_operation rfl a b drawn

theorem alu_setLessThan (a b drawn : Word) : alu 0b0111#4 a b drawn = AluOut.of (aluSlt a b) none :=
  alu_of_operation rfl a b drawn

theorem alu_nor (a b drawn : Word) : alu 0b1100#4 a b drawn = AluOut.of (aluNor a b) none :=
  alu_of_operation rfl a b drawn

/-- Without `P_NOR_EN` the funct of `nor` is in no row of the unit's table (R111). -/
theorem aluControl_nor_iff (c : Config) : aluControl c 0b10#2 fnNor = .code codeNor ↔ c.norEn = true := by
  rw [aluControl_rType]
  cases hnor : c.norEn with
  | false => simp [aluControlRType_eq_unsupported (c := c) (f := fnNor) (by decide) fun _ => hnor]
  | true => simp [aluControlRType, hnor, fnNor, fnAdd, fnSub, fnAnd, fnOr, fnSlt]

/-- Settles O6: the four rows of the ALU's table, and `aluControl_nor_iff`. -/
theorem aluBitwiseAndAdd : Obligations.AluBitwiseAndAdd := by
  refine ⟨fun a b d => ?_, aluControl_nor_iff⟩
  rw [alu_and, alu_or, alu_add, alu_nor]
  exact ⟨rfl, rfl, BitVec.toNat_add a b, rfl, rfl, rfl, rfl, rfl⟩

/-! ## SUBTRACT (R102) -/

/-- To invert and add 1 is to negate. -/
theorem aluSub_eq_sub (a b : Word) : aluSub a b = a - b := by
  rw [aluSub, addWrap, addWrap, BitVec.add_assoc, ← BitVec.neg_eq_not_add, ← BitVec.sub_eq_add_neg]

/-- Settles O8: the result is the difference (`aluSub_eq_sub`), which is zero for equal operands only. -/
theorem subtractIsDifferenceAndTestsEquality : Obligations.SubtractIsDifferenceAndTestsEquality := by
  intro a b d
  rw [alu_subtract]
  refine ⟨rfl, aluSub_eq_sub a b, rfl, ?_⟩
  rw [AluOut.of_zero, zeroFlag_eq_true_iff, aluSub_eq_sub]
  exact sub_eq_zero

/-! ## SET-LESS-THAN (R103) -/

/-- Of two operands of like sign the difference does not overflow, so its sign bit compares them. -/
theorem msb_sub_of_msb_eq {w : Nat} {a b : BitVec w} (h : a.msb = b.msb) :
    (a - b).msb = decide (a.toInt < b.toInt) := by
  have hfits : ¬ BitVec.ssubOverflow a b := by
    rw [BitVec.ssubOverflow_eq, h]
    cases b.msb <;> simp
  rw [BitVec.msb_eq_toInt, BitVec.toInt_sub_of_not_ssubOverflow hfits, decide_eq_decide]
  omega

/-- Of two operands of unlike sign the negative one is less. -/
theorem msb_of_msb_ne {w : Nat} {a b : BitVec w} (h : a.msb ≠ b.msb) : a.msb = decide (a.toInt < b.toInt) := by
  rw [BitVec.msb_eq_toInt, BitVec.msb_eq_toInt, ne_eq, decide_eq_decide] at h
  rw [BitVec.msb_eq_toInt, decide_eq_decide]
  omega

/-- What the source's sign bits compute is the signed comparison. -/
theorem signBits_eq_signedLess {w : Nat} (a b : BitVec w) :
    (if a.msb ≠ b.msb then a.msb else (a - b).msb) = decide (a.toInt < b.toInt) := by
  split_ifs with h
  · exact msb_of_msb_ne h
  · exact msb_sub_of_msb_eq (not_ne_iff.mp h)

theorem aluSlt_eq_signBits (a b : Word) :
    aluSlt a b = if (if a.msb ≠ b.msb then a.msb else (a - b).msb) = true then 1#32 else 0#32 := by
  simp only [aluSlt, aluSub_eq_sub, bne_iff_ne]

/-- Settles O9: the ALU computes by the sign bits (`aluSlt_eq_signBits`), which make the signed comparison
(`signBits_eq_signedLess`). -/
theorem setLessThanIsSigned : Obligations.SetLessThanIsSigned := by
  intro a b d
  rw [alu_setLessThan, AluOut.of_result, aluSlt_eq_signBits]
  exact ⟨by simp only [signBits_eq_signedLess, decide_eq_true_eq], rfl⟩

end Sys2Proof.Machine
end

section
/-!
PROOFS. The immediate's sign extension and shift, and the three-way multiplexer (40_units.md R93 to R96).
-/

namespace Sys2Proof.Machine

/-! ## Sign extension (R94) -/

/-- Bit 15 of the immediate is its sign bit. -/
theorem sext32_eq_append (v : BitVec 16) :
    sext32 v = (if v.getLsbD 15 = true then 0xFFFF#16 else 0x0000#16) ++ v :=
  BitVec.signExtend_eq_append_of_le (by decide)

theorem sext32_lowerHalf (v : BitVec 16) : (sext32 v).extractLsb' 0 16 = v := by
  rw [sext32_eq_append, BitVec.extractLsb'_append_eq_right]

theorem sext32_upperHalf (v : BitVec 16) :
    (sext32 v).extractLsb' 16 16 = if v.getLsbD 15 = true then 0xFFFF#16 else 0x0000#16 := by
  rw [sext32_eq_append, BitVec.extractLsb'_append_eq_left]

theorem sext32_of_bit15_clear {v : BitVec 16} (h : v.getLsbD 15 = false) : sext32 v = v.setWidth 32 :=
  BitVec.signExtend_eq_setWidth_of_msb_false h

theorem toInt_sext32 (v : BitVec 16) : (sext32 v).toInt = v.toInt := BitVec.toInt_signExtend_of_le (by decide)

/-! ## The shift by two (R95, R96) -/

theorem shiftLeft2_eq_mul (x : Word) : shiftLeft2 x = x * 4#32 :=
  calc shiftLeft2 x = x <<< 2 := (BitVec.shiftLeft_eq_concat_of_lt (x := x) (n := 2) (by decide)).symm
    _ = x * 4#32 := BitVec.shiftLeft_eq_mul_twoPow x 2

/-- Four times a 16-bit number fits in 32 bits, so the two bits the shift drops are copies of the sign. -/
theorem toInt_shiftLeft2_sext32 (v : BitVec 16) : (shiftLeft2 (sext32 v)).toInt = v.toInt * 4 := by
  have hlower : -2 ^ 15 ≤ v.toInt := BitVec.le_toInt v
  have hupper : v.toInt < 2 ^ 15 := BitVec.toInt_lt
  have hfour : (4#32).toInt = 4 := by decide
  rw [shiftLeft2_eq_mul, BitVec.toInt_mul, toInt_sext32, hfour, Int.bmod_eq_of_le] <;> omega

theorem msb_shiftLeft2_sext32 (v : BitVec 16) : (shiftLeft2 (sext32 v)).msb = v.msb := by
  rw [BitVec.msb_eq_toInt, toInt_shiftLeft2_sext32, BitVec.msb_eq_toInt, decide_eq_decide]
  omega

/-- Settles O11: the extension is the immediate under a half of copies of its sign (`sext32_eq_append`), and its shift is
the exact product (`toInt_shiftLeft2_sext32`). -/
theorem signExtensionAndShift : Obligations.SignExtensionAndShift := by
  refine ⟨fun v => ⟨sext32_eq_append v, ?idempotent, sext32_of_bit15_clear, fun h => ?upper⟩, fun x => ?shift,
    fun v => ?sign⟩
  case idempotent => rw [sext32_lowerHalf]
  case upper => rw [sext32_upperHalf, if_pos h]
  case shift => exact ⟨rfl, shiftLeft2_eq_mul x⟩
  case sign => exact ⟨toInt_shiftLeft2_sext32 v, msb_shiftLeft2_sext32 v⟩

/-! ## The three-way multiplexer (R93) -/

/-- The faults a step raises are those of memory accesses. -/
theorem kind_of_mem_stepFaults {c : Config} {s : State} {e : FaultEntry} (he : e ∈ stepFaults c s) :
    e.kind = .memReadWriteConflict ∨ e.kind = .misalignedAccess := by
  rw [stepFaults_eq, List.mem_append, dmemAccess, Memory.access_faults, fetchFaults_eq] at he
  obtain hmem | hfetch := he
  · split_ifs at hmem
    · exact .inl (List.mem_singleton.mp hmem ▸ rfl)
    · exact .inr (List.mem_singleton.mp hmem ▸ rfl)
    · cases hmem
  · split_ifs at hfetch
    · exact .inr (List.mem_singleton.mp hfetch ▸ rfl)
    · cases hfetch

/-- Settles O12: the forwarding unit never gives 3 (`forwardSelect_ne_three`), and what a step raises is of another kind
(`kind_of_mem_stepFaults`). -/
theorem threeWayMultiplexer : Obligations.ThreeWayMultiplexer := by
  refine ⟨fun a b d => ⟨rfl, rfl, rfl, rfl⟩, fun s => rfl, forwardSelect_ne_three, fun c s e he hmux => ?_⟩
  obtain hkind | hkind := kind_of_mem_stepFaults he <;> cases hkind.symm.trans hmux

end Sys2Proof.Machine
end

section
/-!
PROOFS. A clock step that does not fault (41_pipeline.md R125 to R143), stage by stage: it commits (`clock_commits`), and
each latch, the PC, the register file and the data memory are then as `commit_pc`, `commit_ifid` and the other laws of
`commit` say.
-/

namespace Sys2Proof.Machine

/-! ## Steps that commit, and steps that record (R155) -/

/-- A step that leaves no fault recorded raised none, and it commits. -/
theorem clock_commits {c : Config} {s t : State} (h : clock c s = .next t) (ht : t.fault = none) :
    s.fault = none ∧ stepFaults c s = [] ∧ t = commit c s := by
  obtain ⟨hf, ⟨hnil, rfl⟩ | ⟨-, rfl⟩⟩ := clock_cases h
  · exact ⟨hf, hnil, rfl⟩
  · cases ht

theorem clock_of_no_fault {c : Config} {s : State} (hf : s.fault = none) (hnil : stepFaults c s = []) :
    clock c s = .next (commit c s) := by
  rw [clock_of_none hf, if_pos hnil]

/-- Settles O40: the step records its faults (`clock_of_none`), and from a state with a record there is no step
(`clock_of_some`). -/
theorem faultingStepCommitsNothing : Obligations.FaultingStepCommitsNothing := by
  intro c s hf hne
  have hclock : clock c s = .next (s.raise (stepFaults c s)) := by rw [clock_of_none hf, if_neg hne]
  refine ⟨hclock, fun t ht => ?_⟩
  obtain rfl : s.raise (stepFaults c s) = t := by simpa [hclock] using ht
  exact clock_of_some rfl

/-- A step raises no fault where MEM makes no access or one of the two at an aligned address, and where IF's fetch is at
an aligned PC or held back by a stall. -/
theorem stepFaults_eq_nil_iff (c : Config) (s : State) :
    stepFaults c s = [] ↔
      ¬ (s.exmem.memRead = true ∧ s.exmem.memWrite = true) ∧
      ((s.exmem.memRead = true ∨ s.exmem.memWrite = true) → aligned s.exmem.aluResult = true) ∧
      (stall c s = false → aligned s.pc = true) := by
  rw [stepFaults_eq, dmemAccess, Memory.access_faults, fetchFaults_eq, List.append_eq_nil_iff]
  split_ifs <;> simp_all

/-! ## IF: the fetch and the PC (R136 to R138) -/

/-- IF/ID before a squash, in a step that does not fault: held under a stall, else the word at the PC. -/
theorem ifIdNext_eq {c : Config} {s : State} (h : stepFaults c s = []) :
    ifIdNext c s = if stall c s = true then s.ifid else { instr := codeWord c s s.pc, pc4 := s.pc + 4#32 } := by
  obtain ⟨-, -, hpc⟩ := (stepFaults_eq_nil_iff c s).mp h
  unfold ifIdNext
  split_ifs with hstall
  · rfl
  · rw [fetchWord, memRead_of_aligned (hpc (Bool.not_eq_true _ ▸ hstall))]
    rfl

/-- The redirect mux, then the PC-write-enable mux. -/
theorem pcNext_eq (c : Config) (s : State) :
    pcNext c s = if stall c s = true then s.pc else if pcSrc s = true then s.exmem.target else s.pc + 4#32 := by
  unfold pcNext
  cases stall c s <;> rfl

/-- In an unimpeded step IF latches the word at the PC and PC+4. -/
theorem State.Unimpeded.commit_ifid {c : Config} {s : State} (h : s.Unimpeded c) :
    (commit c s).ifid = { instr := codeWord c s s.pc, pc4 := s.pc + 4#32 } := by
  rw [Machine.commit_ifid, if_neg (by simp [h.pcSrc]), ifIdNext_eq h.stepFaults, if_neg (by simp [h.stall])]

/-- Settles O29: a step that does not fault, with no stall and no redirect, is unimpeded; and the conditions of the second
clause are those of `stepFaults_eq_nil_iff`. -/
theorem stepFetchesTheWordAtThePc : Obligations.StepFetchesTheWordAtThePc := by
  refine ⟨fun c s t h ht hstall hsrc => ?_, fun c s hf hstall hsrc hpc hread hwrite => ?_⟩
  · obtain ⟨hf, hnil, rfl⟩ := clock_commits h ht
    have hu : s.Unimpeded c := ⟨hf, hnil, hstall, hsrc⟩
    exact ⟨hu.commit_ifid, hu.commit_pc⟩
  · have hnil : stepFaults c s = [] := (stepFaults_eq_nil_iff c s).mpr
      ⟨fun ⟨hr, hw⟩ => Bool.false_ne_true ((hread hr).1.symm.trans hw),
        fun haccess => haccess.elim (fun hr => (hread hr).2) hwrite, fun _ => hpc⟩
    have hu : s.Unimpeded c := ⟨hf, hnil, hstall, hsrc⟩
    exact ⟨_, hu.clock_eq, (commit_fault c s).trans hf, hu.commit_ifid, hu.commit_pc⟩

/-- Settles O36: where the squash does not override the PC (`commit_pc`), the two muxes give it (`pcNext_eq`). -/
theorem pcMultiplexers : Obligations.PcMultiplexers := by
  intro c s t h ht hk
  obtain ⟨-, -, rfl⟩ := clock_commits h ht
  rw [commit_pc, if_neg fun ⟨hsrc, h2⟩ => absurd (hk hsrc) (by omega), pcNext_eq]

/-! ## WB (R127) -/

/-- The MemToReg mux. -/
theorem wbValue_eq (s : State) :
    wbValue s = if s.memwb.memToReg = true then s.memwb.readData else s.memwb.aluResult := rfl

/-- A register read after the write-back of the step. -/
theorem wbFile_read (s : State) (r : RegIdx) :
    (wbFile s).read r =
      if s.memwb.regWrite = true ∧ s.memwb.writeReg ≠ 0#5 ∧ r = s.memwb.writeReg then wbValue s else s.reg r := by
  rw [wbFile_eq_write, RegFile.read_write, MemWb.dest, State.reg]
  cases s.memwb.regWrite
  · simp
  · simp [and_comm]

theorem State.reg_commit (c : Config) (s : State) (r : RegIdx) : (commit c s).reg r = (wbFile s).read r := by
  rw [State.reg, commit_x]

/-! ## Forwarding (R140 to R143) -/

/-- A selector, with the flag asked first. -/
theorem forwardSelect_eq (c : Config) (s : State) (r : RegIdx) :
    forwardSelect c s r =
      if c.fwdEn = false then 0#2
      else if s.exmem.regWrite = true ∧ s.exmem.writeReg ≠ 0#5 ∧ s.exmem.writeReg = r then 2#2
      else if s.memwb.regWrite = true ∧ s.memwb.writeReg ≠ 0#5 ∧ s.memwb.writeReg = r then 1#2
      else 0#2 := by
  unfold forwardSelect
  cases c.fwdEn <;> simp

/-- Settles O33: both selectors are `forwardSelect`, whose cases are `forwardSelect_eq`. -/
theorem forwardingSelectors : Obligations.ForwardingSelectors := by
  intro c s
  simp only [List.forall_mem_cons, List.not_mem_nil, false_imp_iff, implies_true, and_true]
  exact ⟨forwardSelect_eq c s _, forwardSelect_eq c s _⟩

/-- Only an instruction in EX/MEM that writes the operand's register is forwarded from there. -/
theorem exmem_of_forwardSelect_eq_two {c : Config} {s : State} {r : RegIdx} (h : forwardSelect c s r = 2#2) :
    s.exmem.regWrite = true ∧ s.exmem.writeReg ≠ 0#5 ∧ s.exmem.writeReg = r := by
  rw [forwardSelect_eq] at h
  split_ifs at h with _ hmem
  · exact absurd h (by decide)
  · exact hmem
  · exact absurd h (by decide)
  · exact absurd h (by decide)

/-- Only an instruction in MEM/WB that writes the operand's register is forwarded from there. -/
theorem memwb_of_forwardSelect_eq_one {c : Config} {s : State} {r : RegIdx} (h : forwardSelect c s r = 1#2) :
    s.memwb.regWrite = true ∧ s.memwb.writeReg ≠ 0#5 ∧ s.memwb.writeReg = r := by
  rw [forwardSelect_eq] at h
  split_ifs at h with _ _ hwb
  · exact absurd h (by decide)
  · exact absurd h (by decide)
  · exact hwb
  · exact absurd h (by decide)

theorem operandA_eq (c : Config) (s : State) :
    operandA c s =
      if forwardA c s = 2#2 then s.exmem.aluResult else if forwardA c s = 1#2 then wbValue s else s.idex.rd1 :=
  forwardMux_select ..

theorem operandBF_eq (c : Config) (s : State) :
    operandBF c s =
      if forwardB c s = 2#2 then s.exmem.aluResult else if forwardB c s = 1#2 then wbValue s else s.idex.rd2 :=
  forwardMux_select ..

/-- Settles O30: the register file is `wbFile` (`wbFile_read`), and a selector of 1 names WB's own register and value. -/
theorem writeBackStage : Obligations.WriteBackStage := by
  intro c s t h ht
  obtain ⟨-, -, rfl⟩ := clock_commits h ht
  rw [← wbValue_eq]
  refine ⟨fun r => (State.reg_commit c s r).trans (wbFile_read s r), ?_⟩
  simp only [List.forall_mem_cons, List.not_mem_nil, false_imp_iff, implies_true, and_true]
  refine ⟨fun ha => ?_, fun hb => ?_⟩
  · obtain ⟨hwrites, -, hreg⟩ := memwb_of_forwardSelect_eq_one ha
    exact ⟨hwrites, hreg, by rw [operandA_eq, ha]; rfl⟩
  · obtain ⟨hwrites, -, hreg⟩ := memwb_of_forwardSelect_eq_one hb
    exact ⟨hwrites, hreg, by rw [operandBF_eq, hb]; rfl⟩

/-! ## MEM (R129, R130) -/

/-- A load's datum, in a step that does not fault. -/
theorem memWbNext_readData_of_load {c : Config} {s : State} (h : stepFaults c s = []) (hread : s.exmem.memRead = true) :
    (memWbNext c s).readData = s.dmem.readWord c.dmemEndian s.exmem.aluResult := by
  obtain ⟨hone, halign, -⟩ := (stepFaults_eq_nil_iff c s).mp h
  have hwrite : s.exmem.memWrite = false := by simpa [hread] using hone
  exact (Memory.access_dataOr ..).trans (if_pos ⟨hread, hwrite, halign (.inl hread)⟩)

/-- The data memory after a step that does not fault. -/
theorem dmemAccess_memOr_eq {c : Config} {s : State} (h : stepFaults c s = []) :
    (dmemAccess c s).memOr s.dmem =
      if s.exmem.memWrite = true then s.dmem.writeWord c.dmemEndian s.exmem.aluResult s.exmem.writeData else s.dmem := by
  obtain ⟨hone, halign, -⟩ := (stepFaults_eq_nil_iff c s).mp h
  rw [dmemAccess, Memory.access_memOr]
  by_cases hwrite : s.exmem.memWrite = true
  · have hread : s.exmem.memRead = false := by simpa [hwrite] using hone
    rw [if_pos ⟨hread, hwrite, halign (.inr hwrite)⟩, if_pos hwrite]
  · rw [if_neg fun hstore => hwrite hstore.2.1, if_neg hwrite]

/-- Settles O31: MEM/WB is `memWbNext`, and a step that does not fault reads or writes where EX/MEM says. -/
theorem memoryStage : Obligations.MemoryStage := by
  intro c s t h ht
  obtain ⟨-, hnil, rfl⟩ := clock_commits h ht
  rw [commit_memwb, commit_dmem]
  exact ⟨rfl, rfl, rfl, rfl, memWbNext_readData_of_load hnil, dmemAccess_memOr_eq hnil⟩

/-! ## EX (R131, R133) -/

theorem commit_exmem_of_not_squashed {c : Config} {s : State} (h : pcSrc s = true → c.squash.val < 3) :
    (commit c s).exmem = exMemNext c s :=
  (commit_exmem c s).trans (if_neg fun ⟨hsrc, h3⟩ => absurd (h hsrc) (by omega))

/-- Settles O32: EX/MEM is `exMemNext`, on the operands of `operandA_eq` and `operandBF_eq`; its zero flag is computed over
its result (`aluPath_zero`). -/
theorem executeStage : Obligations.ExecuteStage := by
  intro c s t h ht hk
  obtain ⟨-, -, rfl⟩ := clock_commits h ht
  rw [commit_exmem_of_not_squashed hk]
  exact ⟨operandA c s, operandBF c s, Config.aluDraw s.draws, operandA_eq c s, operandBF_eq c s, rfl,
    aluPath_zero .., rfl, rfl, rfl, rfl, rfl, rfl, rfl, rfl⟩

/-! ## ID (R132, R134, R135) -/

/-- The bundle ID writes before a squash: a bubble under a stall. -/
theorem idExNext_ctl_eq (c : Config) (s : State) :
    (idExNext c s).ctl = if stall c s = true then ctl0 else controlBundle (opcodeOf s.ifid.instr) := rfl

/-- A squash of slot 2 changes the bundle of ID/EX and nothing else of it. -/
theorem commit_idex_eq_with_ctl (c : Config) (s : State) :
    (commit c s).idex =
      { idExNext c s with ctl := (if pcSrc s = true ∧ 2 ≤ c.squash.val then ctl0 else (idExNext c s).ctl) } := by
  rw [commit_idex]
  split_ifs <;> rfl

/-- The bundle in ID/EX: a bubble under a stall or a squash of slot 2. -/
theorem commit_idex_ctl (c : Config) (s : State) :
    (commit c s).idex.ctl =
      if stall c s = true ∨ (pcSrc s = true ∧ 2 ≤ c.squash.val) then ctl0
      else controlBundle (opcodeOf s.ifid.instr) := by
  simp only [commit_idex_eq_with_ctl, idExNext_ctl_eq]
  by_cases hsquash : pcSrc s = true ∧ 2 ≤ c.squash.val
  · rw [if_pos hsquash, if_pos (.inr hsquash)]
  · simp only [hsquash, or_false, if_false]

/-- Settles O34: ID/EX is `idExNext` but for the squash of its bundle; its operands are read from the file WB has written,
which is the file of the state the step leaves. -/
theorem decodeStage : Obligations.DecodeStage := by
  intro c s t h ht
  obtain ⟨-, -, rfl⟩ := clock_commits h ht
  rw [← commit_idex_ctl, commit_idex_eq_with_ctl, State.reg_commit, State.reg_commit]
  exact ⟨rfl, rfl, rfl, rfl, rfl, rfl, rfl, rfl, rfl⟩

/-! ## Diagnostics (R156) -/

theorem aluPath_diag_of_code {c : Config} {op : BitVec 2} {f : BitVec 6} {code : BitVec 4}
    (h : aluControl c op f = .code code) (a b drawn : Word) : (aluPath c a b op f drawn).diag = none := by
  obtain ⟨g, hg⟩ := aluControl_code_supported h
  simp only [aluPath, h, alu_of_operation hg, AluOut.of_diag]

theorem AluOut.diags_of_none {o : AluOut} (h : o.diag = none) (s : State) : o.diags s = [] := by
  rw [AluOut.diags, h]

/-- The functs the unit knows: the five, and that of `nor` where the configuration has it (R111). -/
theorem aluControlRType_eq_code {c : Config} {f : BitVec 6}
    (h : f ∈ [fnAdd, fnSub, fnAnd, fnOr, fnSlt] ∨ (f = fnNor ∧ c.norEn = true)) :
    ∃ code, aluControlRType c f = .code code := by
  simp only [List.mem_cons, List.not_mem_nil, or_false] at h
  obtain (rfl | rfl | rfl | rfl | rfl) | ⟨rfl, hnor⟩ := h
  · exact ⟨codeAdd, rfl⟩
  · exact ⟨codeSub, rfl⟩
  · exact ⟨codeAnd, rfl⟩
  · exact ⟨codeOr, rfl⟩
  · exact ⟨codeSlt, rfl⟩
  · exact ⟨codeNor, (aluControl_nor_iff c).mpr hnor⟩

/-- The record EX makes, by the ALUOp and the funct. -/
theorem aluPath_diags (c : Config) (a b drawn : Word) (op : BitVec 2) (f : BitVec 6) (s : State) :
    (aluPath c a b op f drawn).diags s =
      if op = 0b11#2 then [s.diag .ex .unsupportedALUOp 3]
      else if op = 0b10#2 ∧ f ∉ [fnAdd, fnSub, fnAnd, fnOr, fnSlt] ∧ (f = fnNor → c.norEn = false) then
        [s.diag .ex .unsupportedFunct f.toNat]
      else [] := by
  have hcases : ∀ op : BitVec 2, op = 0b00#2 ∨ op = 0b01#2 ∨ op = 0b10#2 ∨ op = 0b11#2 := by decide
  obtain rfl | rfl | rfl | rfl := hcases op
  · exact AluOut.diags_of_none (aluPath_diag_of_code rfl a b drawn) s
  · exact AluOut.diags_of_none (aluPath_diag_of_code rfl a b drawn) s
  · rw [if_neg (by decide)]
    split_ifs with hunsupported
    · obtain ⟨-, hf, hnor⟩ := hunsupported
      rw [aluPath_of_unsupported ((aluControl_rType c f).trans (aluControlRType_eq_unsupported hf hnor))]
      rfl
    · obtain ⟨code, hcode⟩ : ∃ code, aluControlRType c f = .code code := aluControlRType_eq_code (by
        by_contra hno
        simp only [not_or, not_and, Bool.not_eq_true] at hno
        exact hunsupported ⟨rfl, hno⟩)
      exact AluOut.diags_of_none (aluPath_diag_of_code ((aluControl_rType c f).trans hcode) a b drawn) s
  · rw [if_pos rfl, aluPath_of_unsupported rfl]
    rfl

/-- The record ID makes, by the opcode (30_encoding.md R82). -/
theorem controlDiags_eq (op : BitVec 6) (s : State) :
    controlDiags op s =
      if op ∉ [opRType, opLw, opSw, opBeq, opAddi] then [s.diag .id .unknownOpcode op.toNat] else [] := by
  split_ifs with hop
  · simp only [List.mem_cons, List.not_mem_nil, or_false] at hop
    obtain rfl | rfl | rfl | rfl | rfl := hop <;> rfl
  · simp only [controlDiags, controlRow_eq_none hop]

/-- Settles O42: EX's record is that of `aluPath_diags`, ID's that of `controlDiags_eq`. -/
theorem diagnosticsOfAStep : Obligations.DiagnosticsOfAStep := by
  intro c s t h ht
  obtain ⟨-, -, rfl⟩ := clock_commits h ht
  rw [commit_diagLog, stepDiags, exAlu, aluPath_diags, controlDiags_eq]
  rfl

end Sys2Proof.Machine
end

section
/-!
PROOFS. What stands in a clock step's way (41_pipeline.md R135, R145 to R151): the stall behind a load, the squash of a taken
branch, the two in one step; and a bubble, which does nothing in any stage.
-/

namespace Sys2Proof.Machine

/-! ## The hazard-detection unit (R145, R146) -/

theorem stall_iff (c : Config) (s : State) :
    stall c s = true ↔ c.hduEn = true ∧ s.idex.ctl.memRead = true ∧
      (s.idex.rt = rsOf s.ifid.instr ∨ s.idex.rt = rtOf s.ifid.instr) := by
  simp only [stall, Bool.and_eq_true, Bool.or_eq_true, beq_iff_eq]
  exact and_comm

/-- Without a load in EX there is no stall. -/
theorem stall_of_not_load {s : State} (h : s.idex.ctl.memRead = false) (c : Config) : stall c s = false := by
  rw [stall, h]
  rfl

/-- A stall with no redirect holds the PC and IF/ID. -/
theorem commit_held {c : Config} {s : State} (hstall : stall c s = true) (hsrc : pcSrc s = false) :
    (commit c s).pc = s.pc ∧ (commit c s).ifid = s.ifid := by
  rw [commit_pc, commit_ifid, pcNext_eq, ifIdNext]
  simp only [hstall, hsrc, if_true, Bool.false_eq_true, false_and, if_false, and_self]

/-- Settles O35: the unit is `stall_iff`; a stall holds the PC and IF/ID in a step that commits (`commit_held`), as a step
that faults does anyway; and the bubble it makes in ID/EX is no load. -/
theorem loadUseStall : Obligations.LoadUseStall := by
  refine fun c s => ⟨stall_iff c s, fun t h hstall => ⟨fun hsrc => ?_, fun ht => ?_⟩⟩
  · obtain ⟨-, ⟨-, rfl⟩ | ⟨-, rfl⟩⟩ := clock_cases h
    · exact commit_held hstall hsrc
    · exact ⟨rfl, rfl⟩
  · obtain ⟨-, -, rfl⟩ := clock_commits h ht
    have hbubble : (commit c s).idex.ctl = ctl0 := by rw [commit_idex_ctl, if_pos (.inl hstall)]
    exact ⟨hbubble, stall_of_not_load (by rw [hbubble]; rfl) c⟩

/-! ## The squash of a taken branch (R150, R151) -/

theorem commit_pc_of_redirect {c : Config} {s : State} (hsrc : pcSrc s = true) (hstall : stall c s = false) :
    (commit c s).pc = s.exmem.target := by
  rw [commit_pc, pcNext_eq]
  simp only [hsrc, hstall, Bool.false_eq_true, if_true, if_false, ite_self]

/-- Settles O37: the laws of `commit`, with a redirect and no stall; IF/ID is the word fetched where the squash leaves it
(`ifIdNext_eq`). -/
theorem takenBranchSquashes : Obligations.TakenBranchSquashes := by
  intro c s t h ht hsrc hstall
  obtain ⟨-, hnil, rfl⟩ := clock_commits h ht
  refine ⟨commit_pc_of_redirect hsrc hstall, ?ifid, ?idex, ?exmem⟩
  case ifid =>
    have hone : 2 ≤ c.squash.val ∨ c.squash.val = 1 ↔ 1 ≤ c.squash.val := by omega
    simp only [commit_ifid, hsrc, hstall, true_and, and_true, hone, ifIdNext_eq hnil, Bool.false_eq_true, if_false]
    rfl
  case idex => simp only [commit_idex, hsrc, true_and]
  case exmem =>
    simp only [commit_exmem, hsrc, true_and]
    rfl

/-- Of the legal bundles only that of `beq` branches. -/
theorem Ctl.Legal.eq_ctlBeq {k : Ctl} (h : k.Legal) (hbranch : k.branch = true) : k = ctlBeq := by
  obtain rfl | rfl | rfl | rfl | rfl | rfl := h
  case inr.inr.inr.inl => rfl
  all_goals cases hbranch

/-- Of the legal bundles only that of `lw` reads memory. -/
theorem Ctl.Legal.eq_ctlLw {k : Ctl} (h : k.Legal) (hread : k.memRead = true) : k = ctlLw := by
  obtain rfl | rfl | rfl | rfl | rfl | rfl := h
  case inr.inl => rfl
  all_goals cases hread

/-- A branch in MEM makes no memory access. -/
theorem ExMem.Legal.no_access_of_branch {l : ExMem} (h : l.Legal) (hbranch : l.branch = true) :
    l.memRead = false ∧ l.memWrite = false := by
  obtain ⟨k, hk, hkbranch, hkread, hkwrite, -, -⟩ := h
  obtain rfl := hk.eq_ctlBeq (hkbranch ▸ hbranch)
  exact ⟨hkread, hkwrite⟩

theorem exmem_branch_of_pcSrc {s : State} (h : pcSrc s = true) : s.exmem.branch = true :=
  (Bool.and_eq_true_iff.mp h).1

theorem pcSrc_of_not_branch {s : State} (h : s.exmem.branch = false) : pcSrc s = false := by
  rw [pcSrc, h]
  rfl

/-- Settles O38: the branch in MEM accesses no memory and the stall holds back the fetch, so that nothing faults; the load in
EX is no branch, so that EX/MEM then holds none. -/
theorem stallAndRedirectTogether : Obligations.StallAndRedirectTogether := by
  intro c s hf hidex hexmem hsrc hstall
  obtain ⟨hread, hwrite⟩ := hexmem.no_access_of_branch (exmem_branch_of_pcSrc hsrc)
  have hnil : stepFaults c s = [] :=
    (stepFaults_eq_nil_iff c s).mpr ⟨by simp [hread], by simp [hread, hwrite], by simp [hstall]⟩
  refine ⟨commit c s, clock_of_no_fault hf hnil, (commit_fault c s).trans hf, fun hk => ?deep, fun hk => ?shallow⟩
  case deep =>
    rw [commit_pc, if_pos ⟨hsrc, hk⟩, commit_ifid, if_pos ⟨hsrc, .inl hk⟩, commit_idex_ctl, if_pos (.inl hstall)]
    refine ⟨rfl, rfl, rfl, fun h3 => ?_, fun h2 => commit_exmem_of_not_squashed fun _ => by omega⟩
    rw [commit_exmem, if_pos ⟨hsrc, h3⟩]
    exact ⟨rfl, rfl⟩
  case shallow =>
    have hload := hidex.eq_ctlLw ((stall_iff c s).mp hstall).2.1
    have hexmem' : (commit c s).exmem = exMemNext c s := commit_exmem_of_not_squashed fun _ => by omega
    have hnosquash : ¬ (pcSrc s = true ∧ 2 ≤ c.squash.val) := by omega
    refine ⟨?pc, ?ifid, ?idex, hexmem', pcSrc_of_not_branch ?branch⟩
    case pc => rw [commit_pc, if_neg hnosquash, pcNext_eq, if_pos hstall]
    case ifid => rw [commit_ifid, ifIdNext_eq hnil, if_pos hstall, if_neg (by simp [hstall, hk])]
    case idex => rw [commit_idex, if_neg hnosquash]
    case branch =>
      rw [hexmem', exMemNext, hload]
      rfl

/-! ## Bubbles (R135) -/

/-- A bubble in EX makes EX/MEM control bits of zero, squashed or not. -/
theorem commit_exmem_of_bubble {c : Config} {s : State} (h : s.idex.ctl = ctl0) :
    (commit c s).exmem.branch = false ∧ (commit c s).exmem.memRead = false ∧ (commit c s).exmem.memWrite = false ∧
      (commit c s).exmem.regWrite = false ∧ (commit c s).exmem.memToReg = false := by
  rw [commit_exmem, exMemNext, h]
  split_ifs <;> exact ⟨rfl, rfl, rfl, rfl, rfl⟩

/-- A step in which the instruction in MEM stores nothing leaves the data memory. -/
theorem commit_dmem_of_no_store {c : Config} {s : State} (h : s.exmem.memWrite = false) : (commit c s).dmem = s.dmem := by
  rw [commit_dmem, dmemAccess, Memory.access_memOr, if_neg (by simp [h])]

/-- An instruction in EX/MEM that writes no register is no forwarding source. -/
theorem forwardSelect_ne_two {s : State} (h : s.exmem.regWrite = false) (c : Config) (r : RegIdx) :
    forwardSelect c s r ≠ 2#2 :=
  fun htwo => Bool.false_ne_true (h.symm.trans (exmem_of_forwardSelect_eq_two htwo).1)

/-- An instruction in MEM/WB that writes no register is no forwarding source. -/
theorem forwardSelect_ne_one {s : State} (h : s.memwb.regWrite = false) (c : Config) (r : RegIdx) :
    forwardSelect c s r ≠ 1#2 :=
  fun hone => Bool.false_ne_true (h.symm.trans (memwb_of_forwardSelect_eq_one hone).1)

/-- Settles O39: the bubble in EX, in MEM and in WB. -/
theorem bubbleDoesNothing : Obligations.BubbleDoesNothing := by
  intro c s t h ht
  obtain ⟨-, -, rfl⟩ := clock_commits h ht
  refine ⟨fun hctl => ?ex, fun hbranch _ hwrite hreg => ?mem, fun hreg => ?wb⟩
  case ex =>
    obtain ⟨hbranch, hread, hwrite, hreg, hmemToReg⟩ := commit_exmem_of_bubble (c := c) hctl
    exact ⟨hbranch, hread, hwrite, hreg, hmemToReg, stall_of_not_load (by rw [hctl]; rfl) c⟩
  case mem =>
    exact ⟨pcSrc_of_not_branch hbranch, commit_dmem_of_no_store hwrite, forwardSelect_ne_two hreg c _,
      forwardSelect_ne_two hreg c _, by rw [commit_memwb]; exact hreg⟩
  case wb =>
    exact ⟨commit_x_of_dest_zero (by rw [MemWb.dest, hreg]; rfl), forwardSelect_ne_one hreg c _,
      forwardSelect_ne_one hreg c _⟩

end Sys2Proof.Machine
end

section
/-!
PROOFS. The source's evaluation order (41_pipeline.md R157): each stage, run on the mutable state that the stages before it
left, writes the values of the clock step. The one stage for which that is more than unfolding is EX, whose operands come
through the mailbox.
-/

namespace Sys2Proof.Machine

/-- The cycle after WB and MEM. -/
def runWbMem (c : Config) (s : State) : InCycle := runMem c (runWb { state := s, box := Mailbox.empty })

/-- The cycle after its five stages, before the squash. -/
def runStages (c : Config) (s : State) : InCycle := runIf c (runId c (runEx c (runWbMem c s)))

theorem cycleInOrder_eq (c : Config) (s : State) : cycleInOrder c s = runSquash c (runStages c s) := rfl

/-- The values the five stages write in a clock step, without the count of the step and of its draws. -/
def State.staged (c : Config) (s : State) : State :=
  { s with
    x := wbFile s
    pc := pcNext c s
    ifid := ifIdNext c s
    idex := idExNext c s
    exmem := exMemNext c s
    memwb := memWbNext c s
    dmem := (dmemAccess c s).memOr s.dmem
    diagLog := s.diagLog ++ stepDiags c s }

/-- The sources WB and MEM have published are the latches the forwarding unit reads. -/
theorem select_runWbMem (c : Config) (s : State) (r : RegIdx) :
    (runWbMem c s).box.select c r = forwardSelect c s r := rfl

/-- An operand through the mailbox is the forwarding multiplexer's, which raises no fault. -/
theorem operand_runWbMem (c : Config) (s : State) (latched : Word) (r : RegIdx) :
    (runWbMem c s).box.operand c latched r = ((forwardMux s latched (forwardSelect c s r)).getD latched, []) := by
  rw [Mailbox.operand, select_runWbMem]
  have hne := forwardSelect_ne_three c s r
  generalize forwardSelect c s r = sel at hne
  have hcases : ∀ sel : BitVec 2, sel ≠ 3#2 → sel = 0#2 ∨ sel = 1#2 ∨ sel = 2#2 := by decide
  obtain rfl | rfl | rfl := hcases sel hne <;> rfl

/-- EX writes `exMemNext` and logs the ALU path's diagnostic. -/
theorem runEx_runWbMem (c : Config) (s : State) :
    runEx c (runWbMem c s) =
      { state := { (runWbMem c s).state with
          exmem := exMemNext c s, diagLog := s.diagLog ++ (exAlu c s).diags s }
        box := { (runWbMem c s).box with loadInEx := s.idex.ctl.memRead, loadRt := s.idex.rt } } := by
  have ha : (runWbMem c s).box.operand c s.idex.rd1 s.idex.rs = (operandA c s, []) := operand_runWbMem ..
  have hb : (runWbMem c s).box.operand c s.idex.rd2 s.idex.rt = (operandBF c s, []) := operand_runWbMem ..
  have hidex : (runWbMem c s).state.idex = s.idex := rfl
  simp only [runEx, hidex, ha, hb, List.append_nil]
  rfl

theorem runStages_state (c : Config) (s : State) : (runStages c s).state = s.staged c := by
  rw [runStages, runEx_runWbMem, State.staged, stepDiags, ← List.append_assoc]
  rfl

theorem runStages_faults (c : Config) (s : State) : (runStages c s).box.faults = stepFaults c s := by
  rw [runStages, runEx_runWbMem, stepFaults_eq]
  rfl

/-- The squash reads from the mailbox what the clock step reads from the latches. -/
theorem runSquash_runStages_state (c : Config) (s : State) :
    (runSquash c (runStages c s)).state = squash c s (s.staged c) := by
  have hsrc : (runStages c s).box.pcSrc = pcSrc s := rfl
  have hstall : (runStages c s).box.stall = stall c s := rfl
  rw [← runStages_state]
  simp only [runSquash, squash, hsrc, hstall]
  split_ifs <;> rfl

theorem runSquash_faults (c : Config) (p : InCycle) : (runSquash c p).box.faults = p.box.faults := by
  unfold runSquash
  split_ifs <;> rfl

/-- The squash reads and writes neither count. -/
theorem commit_eq_squash_staged (c : Config) (s : State) :
    commit c s = { squash c s (s.staged c) with cycle := s.cycle + 1, draws := s.draws + 1 } := by
  unfold commit squash
  split_ifs <;> rfl

/-- Settles O45: the two clocks raise the same faults, and where there is none they leave the same state. -/
theorem sourceOrderAgrees : Obligations.SourceOrderAgrees := by
  intro c s
  simp only [clockInOrder, clock, cycleInOrder_eq, runSquash_faults, runStages_faults, runSquash_runStages_state,
    commit_eq_squash_staged]

end Sys2Proof.Machine
end

section
/-!
PROOFS. The architectural effect of the R-type instructions (42_rtype.md R160 to R164), and the reference step on a word,
class by class (41_pipeline.md R120): what its datapath does is the meaning of the instruction the word decodes to.
-/

namespace Sys2Proof

/-- The rows of R76 and R77 that a word can be in, each with the instruction it gives. -/
inductive InRow (w : Word) : Instr → Prop where
  | add : opcodeOf w = opRType → functOf w = fnAdd → InRow w (.add (rdOf w) (rsOf w) (rtOf w))
  | sub : opcodeOf w = opRType → functOf w = fnSub → InRow w (.sub (rdOf w) (rsOf w) (rtOf w))
  | and : opcodeOf w = opRType → functOf w = fnAnd → InRow w (.and (rdOf w) (rsOf w) (rtOf w))
  | or : opcodeOf w = opRType → functOf w = fnOr → InRow w (.or (rdOf w) (rsOf w) (rtOf w))
  | slt : opcodeOf w = opRType → functOf w = fnSlt → InRow w (.slt (rdOf w) (rsOf w) (rtOf w))
  | nor : opcodeOf w = opRType → functOf w = fnNor → InRow w (.nor (rdOf w) (rsOf w) (rtOf w))
  | lw : opcodeOf w = opLw → InRow w (.lw (rtOf w) (rsOf w) (immOf w))
  | sw : opcodeOf w = opSw → InRow w (.sw (rtOf w) (rsOf w) (immOf w))
  | beq : opcodeOf w = opBeq → InRow w (.beq (rsOf w) (rtOf w) (immOf w))
  | addi : opcodeOf w = opAddi → InRow w (.addi (rtOf w) (rsOf w) (immOf w))

theorem inRow_of_decodeRType {w : Word} {i : Instr} (hop : opcodeOf w = opRType) (h : decodeRType w = .instr i) :
    InRow w i := by
  unfold decodeRType at h
  split_ifs at h with hadd hsub hand hor hslt hnor <;> cases h
  · exact .add hop hadd
  · exact .sub hop hsub
  · exact .and hop hand
  · exact .or hop hor
  · exact .slt hop hslt
  · exact .nor hop hnor

/-- A word that decodes to an instruction is in its row. -/
theorem inRow_of_decode {w : Word} {i : Instr} (h : decode w = .instr i) : InRow w i := by
  unfold decode at h
  split_ifs at h with hr hlw hsw hbeq haddi
  · exact inRow_of_decodeRType hr h
  · cases h; exact .lw hlw
  · cases h; exact .sw hsw
  · cases h; exact .beq hbeq
  · cases h; exact .addi haddi

end Sys2Proof

namespace Sys2Proof.Machine

/-! ## Instructions that write a register (R160 to R164) -/

/-- What an instruction leaves that writes one register and goes on. -/
theorem writeBack_frame (dst : RegIdx) (v : Word) {s : State} (h : s.fault = none) :
    ∃ t, writeBack dst v s = .next t ∧ WritesRegister s t dst v ∧ t.pc = s.pc + 4#32 ∧ KeepsData s t ∧ KeepsRest s t ∧
      t.diagLog = s.diagLog :=
  ⟨_, writeBack_of_none h, fun r => State.reg_setReg s dst v r, rfl, fun _ => rfl,
    ⟨fun _ => rfl, rfl, rfl, rfl, rfl, rfl, rfl⟩, rfl⟩

/-- SET-LESS-THAN is the signed comparison. -/
theorem aluSlt_eq (a b : Word) : aluSlt a b = if a.toInt < b.toInt then 1#32 else 0#32 := by
  simp only [aluSlt_eq_signBits, signBits_eq_signedLess, decide_eq_true_eq]

/-- Settles O18: each of the five writes its ALU operation's result (`writeBack_frame`); the difference and the comparison
are the ALU's (`aluSub_eq_sub`, `aluSlt_eq`). -/
theorem rTypeResults : Obligations.RTypeResults := by
  intro rd rs rt s hf
  simp only [List.forall_mem_cons, List.not_mem_nil, false_imp_iff, implies_true, and_true, ← aluSub_eq_sub, ← aluSlt_eq]
  exact ⟨writeBack_frame rd _ hf, writeBack_frame rd _ hf, writeBack_frame rd _ hf, writeBack_frame rd _ hf,
    writeBack_frame rd _ hf⟩

/-! ## The reference step on a word, by its class (R120) -/

@[simp] theorem State.log_nil (s : State) : s.log [] = s := by rw [State.log, List.append_nil]

section
variable {w : Word} (c : Config) (s : State)

/-- An R-type word writes its ALU result, drawn or not, and logs the ALU's diagnostic. -/
theorem seqWord_rType {o : AluOut} (hop : opcodeOf w = opRType)
    (ho : aluPath c (s.reg (rsOf w)) (s.reg (rtOf w)) 0b10#2 (functOf w) (Config.aluDraw s.draws) = o) :
    seqWord c w s = ifRunning s (.next ((s.setReg (rdOf w) o.result).advance.log (o.diags s))) := by
  have halu : seqAlu c w s = o := by rw [seqAlu, hop]; exact ho
  have haccess : seqAccess c w s = .done s.dmem none := by rw [seqAccess, hop]; rfl
  rw [seqWord, seqFaults, haccess, seqCommit, seqFile, seqPc, haccess, halu, hop]
  rfl

/-- An R-type word whose funct the unit knows does its ALU operation. -/
theorem seqWord_operation {v : Word} (hop : opcodeOf w = opRType)
    (ho : aluPath c (s.reg (rsOf w)) (s.reg (rtOf w)) 0b10#2 (functOf w) (Config.aluDraw s.draws) = AluOut.of v none) :
    seqWord c w s = writeBack (rdOf w) v s := by
  rw [seqWord_rType c s hop ho]
  exact congrArg (fun t => ifRunning s (.next t)) (State.log_nil _)

theorem seqWord_nor (hop : opcodeOf w = opRType) (hf : functOf w = fnNor) :
    seqWord c w s = norIn c (rdOf w) (rsOf w) (rtOf w) s := by
  unfold norIn
  split_ifs with hnor
  · refine seqWord_operation c s hop ?_
    rw [hf, aluPath, (aluControl_nor_iff c).mpr hnor]
    rfl
  · refine seqWord_rType c s hop (o := AluOut.of _ (some (.unsupportedFunct, fnNor.toNat))) ?_
    have hunsupported : aluControlRType c fnNor = .unsupported .unsupportedFunct fnNor.toNat :=
      aluControlRType_eq_unsupported (by decide) fun _ => Bool.not_eq_true _ ▸ hnor
    rw [hf]
    exact aluPath_of_unsupported ((aluControl_rType c fnNor).trans hunsupported) ..

/-- What a word leaves that makes no diagnostic. -/
theorem seqCommit_of_silent {o : AluOut} (hctl : controlDiags (opcodeOf w) s = []) (halu : seqAlu c w s = o)
    (ho : o.diag = none) :
    seqCommit c w s = { s with
      x := seqFile c w s, pc := seqPc c w s, dmem := (seqAccess c w s).memOr s.dmem, draws := s.draws + 1 } := by
  rw [seqCommit, hctl, halu, AluOut.diags_of_none ho, List.append_nil, List.append_nil]

/-- The ALU's result for a word with an immediate operand and ALUOp 00 is the sum of base and immediate. -/
theorem seqAlu_of_immediate {k : Ctl} (hk : controlBundle (opcodeOf w) = k) (hsrc : k.aluSrc = true)
    (hop : k.aluOp = 0b00#2) : seqAlu c w s = AluOut.of (effectiveAddress s (rsOf w) (immOf w)) none := by
  rw [seqAlu, hk, hsrc, hop]
  rfl

theorem seqWord_lw (hop : opcodeOf w = opLw) :
    seqWord c w s = loadWord c.dmemEndian (rtOf w) (rsOf w) (immOf w) s := by
  have hk : controlBundle (opcodeOf w) = ctlLw := hop ▸ controlBundle_opLw
  have halu := seqAlu_of_immediate c s hk rfl rfl
  rw [seqWord, seqFaults, seqCommit_of_silent c s (by rw [hop]; rfl) halu rfl, seqFile, seqPc, seqAccess, halu, hk,
    loadWord]
  cases hread : memRead c.dmemEndian s.dmem (effectiveAddress s (rsOf w) (immOf w)) with
  | some v => simp only [Memory.access, ctlLw, AluOut.of_result, hread]; rfl
  | none => simp only [Memory.access, ctlLw, AluOut.of_result, hread]; rfl

theorem seqWord_sw (hop : opcodeOf w = opSw) :
    seqWord c w s = storeWord c.dmemEndian (rtOf w) (rsOf w) (immOf w) s := by
  have hk : controlBundle (opcodeOf w) = ctlSw := hop ▸ controlBundle_opSw
  have halu := seqAlu_of_immediate c s hk rfl rfl
  rw [seqWord, seqFaults, seqCommit_of_silent c s (by rw [hop]; rfl) halu rfl, seqFile, seqPc, seqAccess, halu, hk,
    storeWord]
  cases hwrite : memWrite c.dmemEndian s.dmem (effectiveAddress s (rsOf w) (immOf w)) (s.reg (rtOf w)) with
  | some m => simp only [Memory.access, ctlSw, AluOut.of_result, hwrite]; rfl
  | none => simp only [Memory.access, ctlSw, AluOut.of_result, hwrite]; rfl

theorem seqWord_addi (hop : opcodeOf w = opAddi) :
    seqWord c w s = writeBack (rtOf w) (aluAdd (s.reg (rsOf w)) (sext32 (immOf w))) s := by
  have hk : controlBundle (opcodeOf w) = ctlAddi := hop ▸ controlBundle_opAddi
  have halu := seqAlu_of_immediate c s hk rfl rfl
  rw [seqWord, seqFaults, seqCommit_of_silent c s (by rw [hop]; rfl) halu rfl, seqFile, seqPc, seqAccess, halu, hk]
  rfl

theorem seqWord_beq (hop : opcodeOf w = opBeq) :
    seqWord c w s = execBeq (rsOf w) (rtOf w) (immOf w) s := by
  have hk : controlBundle (opcodeOf w) = ctlBeq := hop ▸ controlBundle_opBeq
  have halu : seqAlu c w s = AluOut.of (aluSub (s.reg (rsOf w)) (s.reg (rtOf w))) none := by rw [seqAlu, hk]; rfl
  rw [seqWord, seqFaults, seqCommit_of_silent c s (by rw [hop]; rfl) halu rfl, seqFile, seqPc, seqAccess, halu, hk]
  rfl

end

/-- The reference step on a word in a row is the meaning of the row's instruction. -/
theorem seqWord_of_inRow {w : Word} {i : Instr} (h : InRow w i) (s : State) : seqWord Config.machine w s = exec i s := by
  cases h with
  | add hop hf | sub hop hf | and hop hf | or hop hf | slt hop hf =>
    exact seqWord_operation _ s hop (by rw [hf]; rfl)
  | nor hop hf => exact seqWord_nor _ s hop hf
  | lw hop => exact seqWord_lw _ s hop
  | sw hop => exact seqWord_sw _ s hop
  | beq hop => exact seqWord_beq _ s hop
  | addi hop => exact seqWord_addi _ s hop

/-- Settles O26: the word at the PC is in the row of the instruction it decodes to (`inRow_of_decode`). -/
theorem referenceStepRunsTheDecodedInstruction : Obligations.ReferenceStepRunsTheDecodedInstruction := by
  intro s w i hword hdecode
  simp only [seqStep, hword]
  exact seqWord_of_inRow (inRow_of_decode hdecode) s

end Sys2Proof.Machine
end

section
/-!
PROOFS. A `beq` alone in the pipeline (41_pipeline.md R152): after `State.EmptyPipeline.aloneInDecode` it is in ID, a step
later in EX, where nothing is forwarded to it, and from MEM it redirects the PC.
-/

namespace Sys2Proof.Machine

/-- With no access in MEM and an aligned PC a step raises no fault. -/
theorem stepFaults_of_no_access (c : Config) {s : State} (hpc : aligned s.pc = true) (hread : s.exmem.memRead = false)
    (hwrite : s.exmem.memWrite = false) : stepFaults c s = [] :=
  (stepFaults_eq_nil_iff c s).mpr ⟨by simp [hread], by simp [hread, hwrite], fun _ => hpc⟩

/-- No load in EX, and nothing in MEM that accesses memory or branches: the step is unimpeded. -/
theorem State.unimpeded_of_exmem_passive (c : Config) {s : State} (hf : s.fault = none) (hpc : aligned s.pc = true)
    (hload : s.idex.ctl.memRead = false) (hexmem : s.exmem.Passive) : s.Unimpeded c := by
  obtain ⟨hread, hwrite, hbranch⟩ := hexmem
  exact ⟨hf, stepFaults_of_no_access c hpc hread hwrite, stall_of_not_load hload c, pcSrc_of_not_branch hbranch⟩

/-- Where neither MEM nor WB holds an instruction with a destination, nothing is forwarded. -/
theorem forwardSelect_of_no_dest {s : State} (hmem : s.exmem.dest = 0#5) (hwb : s.memwb.dest = 0#5) (c : Config)
    (r : RegIdx) : forwardSelect c s r = 0#2 := by
  have hmem' : ¬ (s.exmem.regWrite = true ∧ s.exmem.writeReg ≠ 0#5 ∧ s.exmem.writeReg = r) :=
    fun ⟨hwrite, hne, _⟩ => hne (by simpa [ExMem.dest, hwrite] using hmem)
  have hwb' : ¬ (s.memwb.regWrite = true ∧ s.memwb.writeReg ≠ 0#5 ∧ s.memwb.writeReg = r) :=
    fun ⟨hwrite, hne, _⟩ => hne (by simpa [MemWb.dest, hwrite] using hwb)
  rw [forwardSelect_eq, if_neg hmem', if_neg hwb', ite_self]

/-- A `beq` on the values `a` and `b` is in EX, and no older instruction writes a register or accesses memory or branches. -/
structure State.BranchInExecute (s : State) (a b target : Word) : Prop where
  fault : s.fault = none
  pc_aligned : aligned s.pc = true
  ctl : s.idex.ctl = ctlBeq
  rd1 : s.idex.rd1 = a
  rd2 : s.idex.rd2 = b
  target : branchTarget s.idex.pc4 s.idex.imm = target
  exmem : s.exmem.Passive
  exmem_dest : s.exmem.dest = 0#5
  memwb_dest : s.memwb.dest = 0#5

theorem State.AloneInDecode.branchInExecute {c : Config} {s : State} {w : Word} (h : s.AloneInDecode w)
    (hop : opcodeOf w = opBeq) :
    (commit c s).BranchInExecute (s.reg (rsOf w)) (s.reg (rtOf w)) (branchTarget s.ifid.pc4 (sext32 (immOf w))) := by
  obtain ⟨hp, rfl, hidex, hexmem, hmemwb⟩ := h
  have hu := hp.unimpeded c
  have hfile : wbFile s = s.x := (commit_x c s).symm.trans (commit_x_of_dest_zero hmemwb)
  exact {
    fault := (commit_fault c s).trans hp.fault
    pc_aligned := by rw [hu.commit_pc]; exact aligned_pcPlus4 hp.pc_aligned
    ctl := by rw [hu.commit_idex, hu.idExNext_ctl, hop, controlBundle_opBeq]
    rd1 := by rw [hu.commit_idex]; exact congrArg (RegFile.read · _) hfile
    rd2 := by rw [hu.commit_idex]; exact congrArg (RegFile.read · _) hfile
    target := by rw [hu.commit_idex]; rfl
    exmem := by rw [hu.commit_exmem]; exact hp.idex
    exmem_dest := by rw [hu.commit_exmem, exMemNext_dest, hidex]
    memwb_dest := by rw [commit_memwb, memWbNext_dest, hexmem] }

section
variable {c : Config} {s : State} {a b target : Word} (h : s.BranchInExecute a b target)
include h

theorem State.BranchInExecute.unimpeded : s.Unimpeded c :=
  State.unimpeded_of_exmem_passive c h.fault h.pc_aligned (by rw [h.ctl]; rfl) h.exmem

/-- The ALU subtracts the two values that ID read. -/
theorem State.BranchInExecute.exAlu_eq : exAlu c s = AluOut.of (a - b) none := by
  have hselect := forwardSelect_of_no_dest h.exmem_dest h.memwb_dest c
  have ha : operandA c s = a := by rw [operandA_eq, forwardA, hselect, ← h.rd1]; rfl
  have hb : operandBF c s = b := by rw [operandBF_eq, forwardB, hselect, ← h.rd2]; rfl
  rw [exAlu, operandB, ha, hb, h.ctl, ← aluSub_eq_sub]
  rfl

/-- In the next step the branch is in MEM, taken when the two values are equal. -/
theorem State.BranchInExecute.pcSrc_commit : pcSrc (commit c s) = true ↔ a = b := by
  rw [pcSrc, h.unimpeded.commit_exmem, exMemNext, h.exAlu_eq, h.ctl]
  exact zeroFlag_eq_true_iff.trans sub_eq_zero

/-- With a nop behind it, the branch redirects the PC, or lets it run on, two steps later. -/
theorem State.BranchInExecute.run (hnop : s.ifid.instr = nopWord) :
    ∃ u, clockRun c 2 s = .next u ∧ u.pc = if a = b then target else s.pc + 8#32 := by
  have hu := h.unimpeded (c := c)
  have hf : (commit c s).fault = none := (commit_fault c s).trans h.fault
  have hpc : (commit c s).pc = s.pc + 4#32 := hu.commit_pc
  have hpc_aligned : aligned (commit c s).pc = true := hpc ▸ aligned_pcPlus4 h.pc_aligned
  have hexmem : (commit c s).exmem = exMemNext c s := hu.commit_exmem
  have hread : (commit c s).exmem.memRead = false := by rw [hexmem, exMemNext, h.ctl]; rfl
  have hwrite : (commit c s).exmem.memWrite = false := by rw [hexmem, exMemNext, h.ctl]; rfl
  have hload : (commit c s).idex.ctl.memRead = false := by
    rw [hu.commit_idex, hu.idExNext_ctl, hnop]
    exact nopWord_passive.1
  have hnil := stepFaults_of_no_access c hpc_aligned hread hwrite
  have hstall := stall_of_not_load hload c
  refine ⟨_, by rw [clockRun_succ hu.clock_eq, clockRun_succ (clock_of_no_fault hf hnil), clockRun], ?_⟩
  split_ifs with hab
  · rw [commit_pc_of_redirect (h.pcSrc_commit.mpr hab) hstall, hexmem, ← h.target]
    rfl
  · have hsrc : pcSrc (commit c s) = false := Bool.not_eq_true _ ▸ mt h.pcSrc_commit.mp hab
    have hu₁ : (commit c s).Unimpeded c := ⟨hf, hnil, hstall, hsrc⟩
    rw [hu₁.commit_pc, hpc, BitVec.add_assoc]
    rfl

end

/-- Settles O53: two steps bring the `beq` into EX (`State.EmptyPipeline.aloneInDecode`,
`State.AloneInDecode.branchInExecute`), with the first nop behind it, and two more to its redirect
(`State.BranchInExecute.run`). -/
theorem loneBranchRedirectsInItsFourthStep : Obligations.LoneBranchRedirectsInItsFourthStep := by
  intro c s rs rt off hempty hpc hdecode hnops
  generalize hw : codeWord c s s.pc = w at hdecode
  cases inRow_of_decode hdecode with
  | beq hop =>
    have hu := (hempty.passive hpc).unimpeded c
    have halone : (commit c s).AloneInDecode w := hw ▸ hempty.aloneInDecode hpc
    have hu₁ := halone.passive.unimpeded c
    have hx : (commit c s).x = s.x := commit_x_of_dest_zero (by rw [hempty.memwb]; rfl)
    have hnop : (commit c (commit c s)).ifid.instr = nopWord := by
      rw [hu₁.commit_ifid_instr, codeWord_commit, hu.commit_pc]
      exact hnops _ (by simp)
    obtain ⟨u, hrun, hupc⟩ := (halone.branchInExecute (c := c) hop).run hnop
    refine ⟨u, by rw [clockRun_succ hu.clock_eq, clockRun_succ hu₁.clock_eq, hrun], hupc.trans ?_⟩
    rw [State.reg, State.reg, hx, hu.commit_ifid, branchTarget, shiftLeft2_eq_mul, hu₁.commit_pc, hu.commit_pc,
      BitVec.add_assoc _ 4#32, BitVec.add_assoc]
    rfl

end Sys2Proof.Machine
end

section
/-!
PROOFS. The architectural effect of `nor` in every configuration (42_rtype.md R165, 30_encoding.md R83, R84).
-/

namespace Sys2Proof.Machine

/-- What an R-type word with an unsupported funct leaves: a register written, one record logged. -/
theorem unsupportedRType_frame (funct : BitVec 6) (rd : RegIdx) {s : State} (h : s.fault = none) :
    ∃ t, unsupportedRType funct rd s = .next t ∧ WritesRegister s t rd (Config.aluDraw s.draws) ∧
      t.pc = s.pc + 4#32 ∧ KeepsData s t ∧ KeepsRest s t ∧
      t.diagLog = s.diagLog ++ [s.diag .ex .unsupportedFunct funct.toNat] :=
  ⟨_, ifRunning_of_none h, fun r => State.reg_setReg s rd _ r, rfl, fun _ => rfl,
    ⟨fun _ => rfl, rfl, rfl, rfl, rfl, rfl, rfl⟩, rfl⟩

theorem norIn_effect (c : Config) (rd rs rt : RegIdx) {s : State} (h : s.fault = none) :
    ∃ t, norIn c rd rs rt s = .next t ∧ NorEffect c rd rs rt s t := by
  unfold norIn NorEffect
  split_ifs
  · obtain ⟨t, ht, hwrites, hpc, hdata, hrest, hlog⟩ := writeBack_frame rd (aluNor (s.reg rs) (s.reg rt)) h
    exact ⟨t, ht, hpc, hdata, hrest, hwrites, hlog⟩
  · obtain ⟨t, ht, hwrites, hpc, hdata, hrest, hlog⟩ := unsupportedRType_frame fnNor rd h
    exact ⟨t, ht, hpc, hdata, hrest, ⟨_, hwrites⟩, hlog⟩

/-- A `nor` that the configuration does not know is an R-type word with an unsupported funct. -/
theorem exec_nor_of_unknown (h : ¬ Config.machine.norEn = true) (rd rs rt : RegIdx) (s : State) :
    exec (.nor rd rs rt) s = unsupportedRType fnNor rd s := if_neg h

/-- Where the configuration knows it, a `nor` writes the complement of the union. -/
theorem exec_nor_of_known (h : Config.machine.norEn = true) (rd rs rt : RegIdx) (s : State) :
    exec (.nor rd rs rt) s = writeBack rd (aluNor (s.reg rs) (s.reg rt)) s := if_pos h

/-- Settles O19: `exec` is `norIn` in the machine's configuration, and `norIn_effect` holds in each. -/
theorem norResult : Obligations.NorResult := fun rd rs rt _ hf =>
  ⟨norIn_effect Config.machine rd rs rt hf, fun c => norIn_effect c rd rs rt hf⟩

end Sys2Proof.Machine
end

section
/-!
PROOFS. An instruction alone in the pipeline (70_reset_and_hazards.md R238, R241). In its EX step it has the operands that the
reference step reads, so that it computes the reference step's result, accesses memory as the reference step does one step
later, and writes the reference step's register in the step after that.
-/

namespace Sys2Proof.Machine

/-! ## What the pipeline and the reference step are compared by -/

/-- `t` records no fault and holds the registers and the data memory of `s`. -/
structure State.SameData (t s : State) : Prop where
  fault : t.fault = none
  x : t.x = s.x
  dmem : t.dmem = s.dmem

theorem State.SameData.reg {s t : State} (h : t.SameData s) (r : RegIdx) : t.reg r = s.reg r :=
  congrArg (RegFile.read · r) h.x

theorem State.SameData.effectiveAddress {s t : State} (h : t.SameData s) (rs : RegIdx) (imm : BitVec 16) :
    effectiveAddress t rs imm = effectiveAddress s rs imm := by
  rw [Machine.effectiveAddress, Machine.effectiveAddress, h.reg]

/-! ## A meaning from two states that hold the same data -/

theorem fault_of_exec_eq_next {i : Instr} {s t : State} (h : exec i s = .next t) : s.fault = none := by
  obtain ⟨u, -, hexec⟩ := exec_eq_ifRunning i s
  exact (ifRunning_eq_next (hexec.symm.trans h)).1

section
variable {r s t : State} (h : r.SameData s)
include h

theorem State.SameData.writeBack {dst : RegIdx} {v v' : Word} (hv : v' = v) (hs : writeBack dst v s = .next t) :
    ∃ u, Machine.writeBack dst v' r = .next u ∧ u.SameData t := by
  obtain ⟨-, rfl⟩ := writeBack_eq_next hs
  exact ⟨_, writeBack_of_none h.fault, h.fault, congrArg₂ (RegFile.write · dst ·) h.x hv, h.dmem⟩

theorem State.SameData.loadWord {e : Endian} {rt rs : RegIdx} {imm : BitVec 16}
    (hf : s.fault = none) (hs : loadWord e rt rs imm s = .next t) (ht : t.fault = none) :
    ∃ u, Machine.loadWord e rt rs imm r = .next u ∧ u.SameData t := by
  rw [loadWord_eq _ _ _ _ hf] at hs
  rw [loadWord_eq _ _ _ _ h.fault, h.effectiveAddress, h.dmem]
  split_ifs at hs ⊢ <;> cases hs
  · exact ⟨_, rfl, h.fault, congrArg (RegFile.write · rt _) h.x, h.dmem⟩
  · cases ht

theorem State.SameData.storeWord {e : Endian} {rt rs : RegIdx} {imm : BitVec 16}
    (hf : s.fault = none) (hs : storeWord e rt rs imm s = .next t) (ht : t.fault = none) :
    ∃ u, Machine.storeWord e rt rs imm r = .next u ∧ u.SameData t := by
  rw [storeWord_eq _ _ _ _ hf] at hs
  rw [storeWord_eq _ _ _ _ h.fault, h.effectiveAddress]
  split_ifs at hs ⊢ <;> cases hs
  · refine ⟨_, rfl, h.fault, h.x, ?_⟩
    simp only [State.stored, State.advance_dmem, h.dmem, h.reg, h.effectiveAddress]
  · cases ht

/-- But for a drawn result, what an instruction does to the registers and the data memory is a function of these. -/
theorem State.SameData.exec {i : Instr} (hnor : ∀ rd rs rt, i = .nor rd rs rt → Config.machine.norEn = true)
    (hs : exec i s = .next t) (ht : t.fault = none) : ∃ u, Machine.exec i r = .next u ∧ u.SameData t := by
  have hf := fault_of_exec_eq_next hs
  cases i with
  | add | sub | and | or | slt | addi => exact h.writeBack (by simp only [h.reg]) hs
  | nor rd rs rt =>
    rw [exec_nor_of_known (hnor rd rs rt rfl)] at hs ⊢
    exact h.writeBack (by simp only [h.reg]) hs
  | lw => exact h.loadWord hf hs ht
  | sw => exact h.storeWord hf hs ht
  | beq =>
    obtain ⟨-, hnext⟩ := ifRunning_eq_next hs
    cases hnext
    exact ⟨_, ifRunning_of_none h.fault, h.fault, h.x, h.dmem⟩

end

/-! ## The reference step where it does not fault -/

theorem seqWord_commits {c : Config} {w : Word} {s t : State} (h : seqWord c w s = .next t) (ht : t.fault = none) :
    seqFaults c w s = [] ∧ t = seqCommit c w s := by
  obtain ⟨-, hnext⟩ := ifRunning_eq_next h
  split_ifs at hnext with hnil <;> cases hnext
  · exact ⟨hnil, rfl⟩
  · cases ht

/-- No word writes back a drawn read datum: only `lw` writes the read datum, and `lw` reads. -/
theorem seqAccess_written_eq {c : Config} {w : Word} {s : State} (h : seqFaults c w s = []) (a d d' : Word) :
    mux2 a ((seqAccess c w s).dataOr d) (controlBundle (opcodeOf w)).memToReg =
      mux2 a ((seqAccess c w s).dataOr d') (controlBundle (opcodeOf w)).memToReg := by
  rw [seqFaults, seqAccess, Memory.access_faults] at h
  rw [seqAccess, Memory.access_dataOr, Memory.access_dataOr]
  obtain hk | hk | hk | hk | hk | hk := controlBundle_cases (opcodeOf w) <;> rw [hk] at h ⊢
  case inr.inl =>
    have haligned : aligned (seqAlu c w s).result = true := by simpa [ctlLw] using h
    simp [ctlLw, haligned]
  all_goals rfl

/-! ## Steps that cannot fault -/

/-- The PC stays a multiple of 4 where the target of a branch that redirects it is one. -/
theorem commit_pc_aligned {c : Config} {s : State} (hpc : aligned s.pc = true)
    (htarget : pcSrc s = true → aligned s.exmem.target = true) : aligned (commit c s).pc = true := by
  rw [commit_pc, pcNext_eq]
  split_ifs with hdeep _ hsrc
  · exact htarget hdeep.1
  · exact hpc
  · exact htarget hsrc
  · exact aligned_pcPlus4 hpc

/-- An instruction in EX that accesses no memory accesses none in MEM, squashed or not. -/
theorem commit_exmem_no_access (c : Config) {s : State} (h : s.idex.ctl.Passive) :
    (commit c s).exmem.memRead = false ∧ (commit c s).exmem.memWrite = false := by
  obtain ⟨hread, hwrite, -⟩ := h
  rw [commit_exmem]
  split_ifs
  · exact ⟨rfl, rfl⟩
  · exact ⟨hread, hwrite⟩

/-! ## In EX -/

/-- ID/EX as ID fills it for the word `w` from the registers of `s`. -/
def State.decoded (s : State) (w pc4 : Word) : IdEx :=
  { ctl := controlBundle (opcodeOf w), pc4 := pc4, rd1 := s.reg (rsOf w), rd2 := s.reg (rtOf w), imm := sext32 (immOf w),
    rs := rsOf w, rt := rtOf w, rd := rdOf w, funct := functOf w }

/-- The word `w` is in EX with a nop behind it, and no older instruction writes a register or accesses memory or
branches. -/
structure State.AloneInExecute (s : State) (w pc4 : Word) : Prop where
  fault : s.fault = none
  pc_aligned : aligned s.pc = true
  pc4_aligned : aligned pc4 = true
  instr : s.ifid.instr = nopWord
  idex : s.idex = s.decoded w pc4
  exmem : s.exmem.Passive
  exmem_dest : s.exmem.dest = 0#5
  memwb_dest : s.memwb.dest = 0#5

theorem State.AloneInDecode.aloneInExecute {c : Config} {s : State} {w : Word} (h : s.AloneInDecode w)
    (hpc4 : aligned s.ifid.pc4 = true) (hnop : codeWord c s s.pc = nopWord) :
    (commit c s).AloneInExecute w s.ifid.pc4 := by
  obtain ⟨hp, rfl, hidex, hexmem, -⟩ := h
  have hu := hp.unimpeded c
  exact {
    fault := (commit_fault c s).trans hp.fault
    pc_aligned := by rw [hu.commit_pc]; exact aligned_pcPlus4 hp.pc_aligned
    pc4_aligned := hpc4
    instr := hu.commit_ifid_instr.trans hnop
    idex := by rw [hu.commit_idex, idExNext, hu.stall, State.decoded, State.reg_commit, State.reg_commit]; rfl
    exmem := by rw [hu.commit_exmem]; exact hp.idex
    exmem_dest := by rw [hu.commit_exmem, exMemNext_dest, hidex]
    memwb_dest := by rw [commit_memwb, memWbNext_dest, hexmem] }

section
variable {s : State} {w pc4 : Word} (h : s.AloneInExecute w pc4) (c : Config)
include h

theorem State.AloneInExecute.operandA_eq : operandA c s = s.reg (rsOf w) := by
  rw [Machine.operandA_eq, forwardA, forwardSelect_of_no_dest h.exmem_dest h.memwb_dest, h.idex]
  rfl

theorem State.AloneInExecute.operandBF_eq : operandBF c s = s.reg (rtOf w) := by
  rw [Machine.operandBF_eq, forwardB, forwardSelect_of_no_dest h.exmem_dest h.memwb_dest, h.idex]
  rfl

/-- EX computes what the reference step computes. -/
theorem State.AloneInExecute.exAlu_eq : exAlu c s = seqAlu c w s := by
  rw [exAlu, operandB, h.operandA_eq, h.operandBF_eq, h.idex]
  rfl

theorem State.AloneInExecute.clock_eq : clock c s = .next (commit c s) :=
  clock_of_no_fault h.fault (stepFaults_of_no_access c h.pc_aligned h.exmem.1 h.exmem.2.1)

theorem State.AloneInExecute.pcSrc_eq : pcSrc s = false := pcSrc_of_not_branch h.exmem.2.2

/-! ## In MEM -/

theorem State.AloneInExecute.commit_sameData : (commit c s).SameData s :=
  ⟨(commit_fault c s).trans h.fault, commit_x_of_dest_zero h.memwb_dest, commit_dmem_of_no_store h.exmem.2.1⟩

theorem State.AloneInExecute.commit_exmem : (commit c s).exmem = exMemNext c s :=
  commit_exmem_of_not_squashed (by simp [h.pcSrc_eq])

theorem State.AloneInExecute.commit_pc_aligned : aligned (commit c s).pc = true :=
  Machine.commit_pc_aligned h.pc_aligned (by simp [h.pcSrc_eq])

theorem State.AloneInExecute.commit_target_aligned : aligned (commit c s).exmem.target = true := by
  rw [h.commit_exmem, exMemNext, h.idex]
  exact aligned_branchTarget _ h.pc4_aligned

/-- MEM accesses the data memory as the reference step does. -/
theorem State.AloneInExecute.dmemAccess_commit : dmemAccess c (commit c s) = seqAccess c w s := by
  rw [dmemAccess, (h.commit_sameData c).dmem, h.commit_exmem, exMemNext, h.exAlu_eq, h.operandBF_eq, h.idex]
  rfl

theorem State.AloneInExecute.stepFaults_commit : stepFaults c (commit c s) = seqFaults c w s := by
  rw [stepFaults_eq, fetchFaults_eq, if_neg (by simp [h.commit_pc_aligned]), List.append_nil, h.dmemAccess_commit,
    h.commit_exmem, exMemNext, h.exAlu_eq]
  rfl

/-- In the step of MEM, EX holds the nop or, where the word is a load that the nop waits for, a bubble. -/
theorem State.AloneInExecute.commit_idex_passive : (commit c s).idex.ctl.Passive := by
  rw [commit_idex_ctl, h.instr]
  split_ifs
  · exact ctl0_passive
  · exact nopWord_passive

/-! ## In WB -/

theorem State.AloneInExecute.commit_commit_x : (commit c (commit c s)).x = s.x := by
  rw [commit_x_of_dest_zero (by rw [commit_memwb, memWbNext_dest, h.exmem_dest]), (h.commit_sameData c).x]

/-- WB writes the register that the reference step writes. -/
theorem State.AloneInExecute.wbFile_eq (hfaults : seqFaults c w s = []) :
    wbFile (commit c (commit c s)) = seqFile c w s := by
  rw [wbFile, wbValue, h.commit_commit_x, commit_memwb, memWbNext, h.dmemAccess_commit, h.commit_exmem, exMemNext,
    h.exAlu_eq, h.idex]
  exact congrArg (fun v => (s.x.access (rsOf w) (rtOf w) _ v _).file) (seqAccess_written_eq hfaults ..)

/-- Where the data access of the word does not fault, its three last steps make the reference step's changes to the registers
and the data memory. -/
theorem State.AloneInExecute.run (hfaults : seqFaults c w s = []) :
    ∃ u, clockRun c 3 s = .next u ∧ u.SameData (seqCommit c w s) := by
  have hfault : (commit c (commit c s)).fault = none := (commit_fault c _).trans (h.commit_sameData c).fault
  have hmem : clock c (commit c s) = .next (commit c (commit c s)) :=
    clock_of_no_fault (h.commit_sameData c).fault ((h.stepFaults_commit c).trans hfaults)
  obtain ⟨hread, hwrite⟩ := commit_exmem_no_access c (h.commit_idex_passive c)
  have hpc : aligned (commit c (commit c s)).pc = true :=
    Machine.commit_pc_aligned (h.commit_pc_aligned c) fun _ => h.commit_target_aligned c
  have hwb := clock_of_no_fault hfault (stepFaults_of_no_access c hpc hread hwrite)
  refine ⟨_, by rw [clockRun_succ (h.clock_eq c), clockRun_succ hmem, clockRun_succ hwb, clockRun],
    (commit_fault c _).trans hfault, ?x, ?dmem⟩
  case x => rw [commit_x, h.wbFile_eq c hfaults, seqCommit]
  case dmem =>
    rw [commit_dmem_of_no_store hwrite, commit_dmem, h.dmemAccess_commit, (h.commit_sameData c).dmem, seqCommit]

end

/-! ## From an empty pipeline -/

section
variable {s : State} (h : s.EmptyPipeline) (hpc : aligned s.pc = true) (c : Config)
include h hpc

/-- Two steps bring the word at the PC into EX. -/
theorem State.EmptyPipeline.aloneInExecute (hnop : codeWord c s (s.pc + 4#32) = nopWord) :
    (commit c (commit c s)).AloneInExecute (codeWord c s s.pc) (s.pc + 4#32) := by
  have hu := (h.passive hpc).unimpeded c
  have hpc4 : (commit c s).ifid.pc4 = s.pc + 4#32 := by rw [hu.commit_ifid]
  rw [← hpc4]
  refine (h.aloneInDecode hpc).aloneInExecute ?_ ?_
  · rw [hpc4]; exact aligned_pcPlus4 hpc
  · rw [codeWord_commit, hu.commit_pc, hnop]

/-- The two steps leave the registers and the data memory. -/
theorem State.EmptyPipeline.commit_commit_sameData : (commit c (commit c s)).SameData s := by
  have halone := h.aloneInDecode (c := c) hpc
  refine ⟨by rw [commit_fault, commit_fault, h.fault], ?x, ?dmem⟩
  case x => rw [commit_x_of_dest_zero halone.memwb, commit_x_of_dest_zero (by rw [h.memwb]; rfl)]
  case dmem => rw [halone.passive.commit_dmem, (h.passive hpc).commit_dmem]

theorem State.EmptyPipeline.clockRun_add_two (n : Nat) :
    clockRun c (n + 2) s = clockRun c n (commit c (commit c s)) := by
  rw [clockRun_succ ((h.passive hpc).unimpeded c).clock_eq,
    clockRun_succ ((h.aloneInDecode hpc).passive.unimpeded c).clock_eq]

/-- A word alone in the pipeline, whatever it is, retires in five steps with the effect of the reference step taken where it
is in EX. -/
theorem State.EmptyPipeline.run_word {t : State} (hnop : codeWord c s (s.pc + 4#32) = nopWord)
    (hword : seqWord c (codeWord c s s.pc) (commit c (commit c s)) = .next t) (ht : t.fault = none) :
    ∃ u, clockRun c 5 s = .next u ∧ u.SameData t := by
  obtain ⟨hfaults, rfl⟩ := seqWord_commits hword ht
  rw [h.clockRun_add_two hpc c 3]
  exact (h.aloneInExecute hpc c hnop).run c hfaults

end

/-- Settles O52: in EX the word finds the registers and the data memory it started from
(`State.EmptyPipeline.commit_commit_sameData`), and retires with the effect of its meaning there
(`State.EmptyPipeline.run_word`), which is its effect at the start (`State.SameData.exec`) but for a draw. -/
theorem loneInstructionRetiresInFiveSteps : Obligations.LoneInstructionRetiresInFiveSteps := by
  intro s t i hempty hpc hdecode hnops hexec ht
  rw [core_run_eq_clockRun]
  have hsame := hempty.commit_commit_sameData hpc Config.machine
  have hrun : ∀ t', exec i (commit Config.machine (commit Config.machine s)) = .next t' → t'.fault = none →
      ∃ u, clockRun Config.machine 5 s = .next u ∧ u.SameData t' := fun t' hexec' ht' =>
    hempty.run_word hpc _ (hnops _ (by simp)) ((seqWord_of_inRow (inRow_of_decode hdecode) _).trans hexec') ht'
  by_cases hknown : ∀ rd rs rt, i = .nor rd rs rt → Config.machine.norEn = true
  case pos =>
    obtain ⟨t', hexec', hsame'⟩ := hsame.exec hknown hexec ht
    obtain ⟨u, hu, hdata⟩ := hrun t' hexec' hsame'.fault
    refine ⟨u, hu, hdata.fault, hdata.dmem.trans hsame'.dmem, (hdata.x.trans hsame'.x).trans ?_⟩
    cases i with
    | nor rd rs rt => exact (if_pos (hknown rd rs rt rfl)).symm
    | _ => rfl
  case neg =>
    obtain ⟨rd, rs, rt, rfl, hen⟩ : ∃ rd rs rt, i = .nor rd rs rt ∧ ¬ Config.machine.norEn = true := by
      simpa only [not_forall, exists_prop] using hknown
    obtain ⟨-, rfl⟩ := unsupportedRType_eq_next ((exec_nor_of_unknown hen rd rs rt s).symm.trans hexec)
    obtain ⟨u, hu, hdata⟩ :=
      hrun _ ((exec_nor_of_unknown hen rd rs rt _).trans (ifRunning_of_none hsame.fault)) hsame.fault
    refine ⟨u, hu, hdata.fault, hdata.dmem.trans hsame.dmem, (hdata.x.trans ?_).trans (if_neg hen).symm⟩
    simp only [State.log_x, State.advance_x, State.setReg_x, hsame.x, commit_draws]

end Sys2Proof.Machine
end

section
/-!
PROOFS. The architectural effect of `lw` and `sw` at an aligned effective address (43_load_store.md R170 to R172).
-/

namespace Sys2Proof.Machine

/-- The effective address of R170, in the words of the claims. -/
theorem aligned_effectiveAddress_iff (s : State) (rs : RegIdx) (imm : BitVec 16) :
    aligned (effectiveAddress s rs imm) = true ↔ (s.reg rs + imm.signExtend 32).toNat % 4 = 0 :=
  aligned_iff (effectiveAddress s rs imm)

/-- A load at an aligned effective address writes back the word there. -/
theorem loadWord_of_aligned (e : Endian) (rt : RegIdx) {rs : RegIdx} {imm : BitVec 16} {s : State}
    (hea : aligned (effectiveAddress s rs imm) = true) :
    loadWord e rt rs imm s = writeBack rt (s.dmem.readWord e (effectiveAddress s rs imm)) s := by
  rw [loadWord, memRead_of_aligned hea]

/-- Settles O21: the load is a write-back (`loadWord_of_aligned`), whose frame is `writeBack_frame`. -/
theorem lwResult : Obligations.LwResult := by
  intro rt rs imm s hf hmod
  rw [exec_lw_eq, loadWord_of_aligned _ rt ((aligned_effectiveAddress_iff s rs imm).mpr hmod)]
  exact writeBack_frame rt _ hf

/-- A store changes the data memory and the PC, and leaves the rest. -/
theorem State.keepsRest_stored (e : Endian) (s : State) (rt rs : RegIdx) (imm : BitVec 16) :
    KeepsRest s (s.stored e rt rs imm) :=
  ⟨fun _ => rfl, rfl, rfl, rfl, rfl, rfl, rfl⟩

/-- Settles O22: the store leaves `State.stored` (`storeWord_eq`), whose data memory is one word write: its four bytes are
`Memory.read_writeWord_inside`, every other byte `Memory.read_writeWord_outside`. -/
theorem swResult : Obligations.SwResult := by
  intro rt rs imm s hf hm hmod
  have hea := (aligned_effectiveAddress_iff s rs imm).mpr hmod
  refine ⟨s.stored Config.machine.dmemEndian rt rs imm, ?_, s.reg_stored _ rt rs imm, rfl, s.keepsRest_stored .., rfl,
    fun i hi => ?_, fun a ha => ?_⟩
  · rw [exec_sw_eq, storeWord_eq _ _ _ _ hf, if_pos hea]
  · exact Memory.read_writeWord_inside hm hea hi
  · exact Memory.read_writeWord_outside ha

end Sys2Proof.Machine
end

section
/-!
PROOFS. The architectural effect of `beq` (44_branch.md R175, R176).
-/

namespace Sys2Proof.Machine

/-- The difference of two registers is zero exactly where they hold the same word. -/
theorem branchTaken_iff (s : State) (rs rt : RegIdx) : branchTaken s rs rt = true ↔ s.reg rs = s.reg rt := by
  rw [branchTaken, zeroFlag_eq_true_iff, aluSub_eq_sub]
  exact sub_eq_zero

/-- The target of R175, in the words of the claims. -/
theorem branchTarget_pcPlus4 (pc : Word) (off : BitVec 16) :
    branchTarget (pcPlus4 pc) (sext32 off) = pc + 4#32 + off.signExtend 32 * 4#32 := by
  rw [branchTarget, shiftLeft2_eq_mul]
  rfl

/-- The state that `beq` leaves, in the words of the claims. -/
def State.branched (s : State) (rs rt : RegIdx) (off : BitVec 16) : State :=
  { s with
    pc := if s.reg rs = s.reg rt then s.pc + 4#32 + off.signExtend 32 * 4#32 else s.pc + 4#32
    draws := s.draws + 1 }

theorem execBeq_eq (rs rt : RegIdx) (off : BitVec 16) {s : State} (h : s.fault = none) :
    execBeq rs rt off s = .next (s.branched rs rt off) := by
  rw [execBeq, ifRunning_of_none h, mux2, branchTarget_pcPlus4]
  simp only [branchTaken_iff]
  rfl

theorem exec_beq_eq (rs rt : RegIdx) (off : BitVec 16) (s : State) :
    exec (.beq rs rt off) s = execBeq rs rt off s := rfl

/-- A branch changes the PC and leaves the rest. -/
theorem State.keepsRest_branched (s : State) (rs rt : RegIdx) (off : BitVec 16) : KeepsRest s (s.branched rs rt off) :=
  ⟨fun _ => rfl, rfl, rfl, rfl, rfl, rfl, rfl⟩

/-- Settles O24: the branch leaves `State.branched` (`execBeq_eq`), which differs from the state before in its PC and its
count of draws alone. -/
theorem beqResult : Obligations.BeqResult := by
  intro rs rt off s hf
  refine ⟨s.branched rs rt off, ?_, rfl, fun _ => rfl, fun _ => rfl, s.keepsRest_branched rs rt off, rfl⟩
  rw [exec_beq_eq, execBeq_eq rs rt off hf]

end Sys2Proof.Machine
end

section
/-!
PROOFS. The architectural effect of `addi` (45_immediate.md R180).
-/

namespace Sys2Proof.Machine

/-- `addi` writes the sum in the words of the claims: a 32-bit addition wraps, and the immediate is sign-extended. -/
theorem exec_addi_eq (rt rs : RegIdx) (imm : BitVec 16) (s : State) :
    exec (.addi rt rs imm) s = writeBack rt (s.reg rs + imm.signExtend 32) s := rfl

/-- Settles O20: `addi` is the write of its sum (`exec_addi_eq`), whose whole frame is `writeBack_frame`. -/
theorem addiResult : Obligations.AddiResult := by
  intro rt rs imm s hf
  rw [exec_addi_eq]
  exact writeBack_frame rt _ hf

end Sys2Proof.Machine
end

section
/-!
PROOFS. The one fault a step can raise from a state that meets the invariant (60_exceptions.md R192).
-/

namespace Sys2Proof.Machine

/-- Settles O49: a step that commits keeps the record (`commit_fault`); one that does not records the faults of
`State.Inv.stepFaults_cases`, which are one misaligned data access. -/
theorem onlyMisalignedDataAccessFaults : Obligations.OnlyMisalignedDataAccessFaults := by
  intro c s t hinv hf hst
  obtain ⟨-, ⟨-, rfl⟩ | ⟨hne, rfl⟩⟩ := clock_cases hst
  · exact .inl ((commit_fault c s).trans hf)
  · obtain hnil | ⟨haccess, hmis, hone⟩ := hinv.stepFaults_cases c
    · exact absurd hnil hne
    · exact .inr ⟨haccess, hmis, by rw [State.raise_fault, hone]⟩

end Sys2Proof.Machine
end

section
/-!
PROOFS. The initialisation files (70_reset_and_hazards.md R225 to R227), by induction over their lines and their pairs: the
scan stops at the first malformed line, a load at the first pair it refuses.
-/

namespace Sys2Proof.Machine

/-! ## The lines of a file -/

section
variable {α : Type} {first : List Char → Option α} {line : List Char}

theorem scanPairs_cons_of_lineReads {p : α × Word} (h : LineReads first line p) (rest : List (List Char)) :
    scanPairs first (line :: rest) = p :: scanPairs first rest := by
  obtain ⟨a, v, htokens, ha, hv⟩ := h
  simp only [scanPairs, htokens, ha, hv]

theorem scanPairs_cons_of_malformed (h : ¬ ∃ p, LineReads first line p) (rest : List (List Char)) :
    scanPairs first (line :: rest) = [] := by
  unfold scanPairs
  split
  next a v htokens =>
    split
    next a' v' ha hv => exact absurd ⟨(a', v'), a, v, htokens, ha, hv⟩ h
    next => rfl
  next => rfl

/-- Well-formed lines give their pairs, and the scan goes on behind them. -/
theorem scanPairs_append_of_lineReads {good : List (List Char × α × Word)} (h : ∀ q ∈ good, LineReads first q.1 q.2)
    (rest : List (List Char)) :
    scanPairs first (good.map Prod.fst ++ rest) = good.map Prod.snd ++ scanPairs first rest := by
  induction good with
  | nil => rfl
  | cons q good ih =>
    obtain ⟨hq, hgood⟩ := List.forall_mem_cons.mp h
    simp only [List.map_cons, List.cons_append, scanPairs_cons_of_lineReads hq, ih hgood]

end

/-- Settles O60: the scan reads the good lines (`scanPairs_append_of_lineReads`), and then stops at the malformed line
(`scanPairs_cons_of_malformed`) or at the end of the file. -/
theorem malformedLineEndsTheScan : Obligations.MalformedLineEndsTheScan := by
  intro α first good bad rest hgood hbad
  constructor
  · rw [scanPairs_append_of_lineReads hgood, scanPairs_cons_of_malformed hbad, List.append_nil]
  · simpa [scanPairs] using scanPairs_append_of_lineReads hgood []

/-! ## The pairs of the register file -/

theorem loadRegisters_cons {i : Nat} (hi : i < 32) (x : RegFile) (v : Word) (ps : List (Nat × Word)) :
    loadRegisters x ((i, v) :: ps) = loadRegisters (x.write (BitVec.ofNat 5 i) v) ps := by
  rw [loadRegisters, if_pos hi]

theorem exists_loadRegisters_eq_ok {ps : List (Nat × Word)} (h : ∀ p ∈ ps, p.1 < 32) (x : RegFile) :
    ∃ y, loadRegisters x ps = .ok y := by
  induction ps generalizing x with
  | nil => exact ⟨x, rfl⟩
  | cons p ps ih =>
    obtain ⟨hp, hps⟩ := List.forall_mem_cons.mp h
    rw [loadRegisters_cons hp]
    exact ih hps _

/-- The load is refused at the first index above 31. -/
theorem loadRegisters_eq_error {ps : List (Nat × Word)} (h : ∃ p ∈ ps, 32 ≤ p.1) (x : RegFile) :
    ∃ i, 32 ≤ i ∧ loadRegisters x ps = .error (.registerIndex i) := by
  induction ps generalizing x with
  | nil => simp at h
  | cons p ps ih =>
    by_cases hp : p.1 < 32
    · rw [loadRegisters_cons hp]
      exact ih (((List.exists_mem_cons_iff ..).mp h).resolve_left (by omega)) _
    · exact ⟨p.1, by omega, by rw [loadRegisters, if_neg hp]⟩

/-- Settles O59: a load that succeeds leaves each register's last value (`read_loadRegisters`). -/
theorem registerFileLoads : Obligations.RegisterFileLoads := by
  refine fun x ps => ⟨fun hok => ?_, fun herror => loadRegisters_eq_error herror x⟩
  obtain ⟨y, hy⟩ := exists_loadRegisters_eq_ok hok x
  exact ⟨y, hy, RegFile.read_zero y, fun r hr => read_loadRegisters hy hr⟩

/-! ## The pairs of a memory file -/

theorem loadMemory_cons {a : Word} (ha : aligned a = true) (e : Endian) (m : Memory) (v : Word)
    (ps : List (Word × Word)) : loadMemory e m ((a, v) :: ps) = loadMemory e (m.writeWord e a v) ps := by
  simp only [loadMemory, memWrite_of_aligned ha]

theorem exists_loadMemory_eq_ok {e : Endian} {m : Memory} {ps : List (Word × Word)} (hm : m.wf = true)
    (h : ∀ p ∈ ps, aligned p.1 = true) : ∃ m', loadMemory e m ps = .ok m' ∧ m'.wf = true ∧
      ∀ b, aligned b = true →
        m'.readWord e b = ((ps.reverse.find? (fun p => p.1 == b)).map Prod.snd).getD (m.readWord e b) := by
  induction ps generalizing m with
  | nil => exact ⟨m, rfl, hm, fun _ _ => rfl⟩
  | cons p ps ih =>
    obtain ⟨a, v⟩ := p
    obtain ⟨ha, hps⟩ := List.forall_mem_cons.mp h
    obtain ⟨m', hload, hm', hread⟩ := ih (Memory.wf_writeWord (e := e) (w := v) hm ha) hps
    refine ⟨m', (loadMemory_cons ha ..).trans hload, hm', fun b hb => ?_⟩
    rw [hread b hb, find?_reverse_cons, Memory.readWord_writeWord hm ha hb]
    cases ps.reverse.find? (fun p => p.1 == b) with
    | some q => rfl
    | none =>
      by_cases hba : b = a
      · simp [hba]
      · simp [hba, Ne.symm hba]

/-- The load is refused at the first misaligned address. -/
theorem loadMemory_eq_error {ps : List (Word × Word)} (h : ∃ p ∈ ps, aligned p.1 = false) (e : Endian) (m : Memory) :
    ∃ a, aligned a = false ∧ loadMemory e m ps = .error (.misalignedAddress a) := by
  induction ps generalizing m with
  | nil => simp at h
  | cons p ps ih =>
    cases hp : aligned p.1 with
    | true =>
      rw [loadMemory_cons hp]
      exact ih (((List.exists_mem_cons_iff ..).mp h).resolve_left (by simp [hp])) _
    | false => exact ⟨p.1, hp, by simp only [loadMemory, memWrite_eq_none.mpr hp]⟩

/-- Settles O58: aligned pairs load, one word write each; a misaligned one refuses the file. -/
theorem memoryFileLoads : Obligations.MemoryFileLoads := fun e m _ hm =>
  ⟨exists_loadMemory_eq_ok hm, fun herror => loadMemory_eq_error herror e m⟩

end Sys2Proof.Machine
end

section
/-!
PROOFS. The pipeline commits the reference step's sequence (70_reset_and_hazards.md R239): the reference side. On a word
whose result no draw decides, the reference step's effect does not depend on what it draws.
-/

namespace Sys2Proof.Machine

/-! ## Draws in the reference step -/

/-- The same state, about to draw at another count. -/
def State.drawingAt (s : State) (d : Nat) : State := { s with draws := d }

/-- Only an R-type word leaves its ALU operation to its funct. -/
theorem opcode_of_aluOp_eq_two {op : BitVec 6} (h : (controlBundle op).aluOp = 0b10#2) : op = opRType := by
  by_contra hop
  unfold controlBundle controlRow at h
  split_ifs at h <;> exact absurd h (by decide)

theorem aluControl_of_not_rType (c : Config) {op : BitVec 6} (h : op ≠ opRType) (f : BitVec 6) :
    ∃ code, aluControl c (controlBundle op).aluOp f = .code code := by
  obtain hk | hk | hk | hk | hk | hk := controlBundle_cases op <;> rw [hk]
  case inl => exact absurd (opcode_of_aluOp_eq_two (by rw [hk]; rfl)) h
  all_goals exact ⟨_, rfl⟩

/-- The ALU path draws nothing where the ALU-control unit gives a code. -/
theorem aluPath_eq_of_code {c : Config} {op : BitVec 2} {f : BitVec 6} (h : ∃ code, aluControl c op f = .code code)
    (a b d d' : Word) : aluPath c a b op f d = aluPath c a b op f d' := by
  obtain ⟨code, hcode⟩ := h
  obtain ⟨g, hg⟩ := aluControl_code_supported hcode
  simp only [aluPath, hcode, alu_of_operation hg]

section
variable {c : Config} {w : Word}

theorem seqAlu_drawingAt (h : ∃ code, aluControl c (controlBundle (opcodeOf w)).aluOp (functOf w) = .code code)
    (s : State) (d : Nat) : seqAlu c w (s.drawingAt d) = seqAlu c w s := aluPath_eq_of_code h ..

theorem seqAccess_of_rType (hop : opcodeOf w = opRType) (s : State) : seqAccess c w s = .done s.dmem none := by
  rw [seqAccess, hop]
  rfl

theorem seqAccess_drawingAt (s : State) (d : Nat) : seqAccess c w (s.drawingAt d) = seqAccess c w s := by
  by_cases hop : opcodeOf w = opRType
  · rw [seqAccess_of_rType hop, seqAccess_of_rType hop]
    rfl
  · rw [seqAccess, seqAlu_drawingAt (aluControl_of_not_rType c hop _)]
    rfl

theorem seqFaults_drawingAt (s : State) (d : Nat) : seqFaults c w (s.drawingAt d) = seqFaults c w s := by
  by_cases hop : opcodeOf w = opRType
  · rw [seqFaults, seqFaults, seqAccess_of_rType hop, seqAccess_of_rType hop]
    rfl
  · rw [seqFaults, seqAccess_drawingAt, seqAlu_drawingAt (aluControl_of_not_rType c hop _), seqFaults]

/-- An R-type word with destination 0 writes nothing, drawn or not; the result of every other determined word is not
drawn. -/
theorem seqFile_drawingAt (hw : Determined c w) {s : State} (hfaults : seqFaults c w s = []) (d : Nat) :
    seqFile c w (s.drawingAt d) = seqFile c w s := by
  by_cases hzero : opcodeOf w = opRType ∧ rdOf w = 0#5
  · obtain ⟨hop, hrd⟩ := hzero
    simp only [seqFile, hop, hrd]
    rfl
  · have hcode : ∃ code, aluControl c (controlBundle (opcodeOf w)).aluOp (functOf w) = .code code := by
      by_cases hop : opcodeOf w = opRType
      · rw [hop]
        exact hw hop fun hrd => hzero ⟨hop, hrd⟩
      · exact aluControl_of_not_rType c hop _
    simp only [seqFile, seqAlu_drawingAt hcode, seqAccess_drawingAt]
    exact congrArg (fun v => (s.x.access (rsOf w) (rtOf w) _ v _).file) (seqAccess_written_eq hfaults ..)

end

/-! ## The reference step on the word at the PC -/

/-- The word at the PC. -/
def State.word (c : Config) (s : State) : Word := codeWord c s s.pc

/-- Where the reference step leads that does not fault. -/
def State.seqNext (c : Config) (s : State) : State := seqCommit c (s.word c) s

/-- Whether the reference step takes a branch (R120). -/
def State.branches (c : Config) (s : State) : Bool :=
  and1 (controlBundle (opcodeOf (s.word c))).branch (seqAlu c (s.word c) s).zero

@[simp] theorem State.seqNext_imem (c : Config) (s : State) : (s.seqNext c).imem = s.imem := rfl
@[simp] theorem State.seqNext_fault (c : Config) (s : State) : (s.seqNext c).fault = s.fault := rfl
@[simp] theorem State.drawingAt_word (c : Config) (s : State) (d : Nat) : (s.drawingAt d).word c = s.word c := rfl

theorem State.seqNext_pc (c : Config) (s : State) :
    (s.seqNext c).pc =
      mux2 (pcPlus4 s.pc) (branchTarget (pcPlus4 s.pc) (sext32 (immOf (s.word c)))) (s.branches c) := rfl

theorem State.branches_drawingAt (c : Config) (s : State) (d : Nat) : (s.drawingAt d).branches c = s.branches c := by
  rw [State.branches, State.branches, State.drawingAt_word]
  by_cases hop : opcodeOf (s.word c) = opRType
  · rw [hop]
    rfl
  · rw [seqAlu_drawingAt (aluControl_of_not_rType c hop _)]

theorem seqStep_eq_next {c : Config} {s : State} (hf : s.fault = none) (hpc : aligned s.pc = true)
    (hfaults : seqFaults c (s.word c) s = []) : seqStep c s = .next (s.seqNext c) := by
  rw [seqStep, memRead_of_aligned hpc]
  exact (ifRunning_of_none hf).trans (congrArg _ (if_pos hfaults))

theorem seqRun_succ {c : Config} {n : Nat} {s t : State} (h : seqStep c s = .next t) :
    seqRun c (n + 1) s = seqRun c n t := by
  simp only [seqRun, h]

/-- The state after the reference step on a word, or the state itself where there is none. -/
def State.after (c : Config) (s : State) (occupied : Bool) : State := if occupied then s.seqNext c else s

@[simp] theorem State.after_false (c : Config) (s : State) : s.after c false = s := rfl
@[simp] theorem State.after_true (c : Config) (s : State) : s.after c true = s.seqNext c := rfl

@[simp] theorem State.after_imem (c : Config) (s : State) (occupied : Bool) : (s.after c occupied).imem = s.imem := by
  cases occupied <;> rfl

@[simp] theorem State.after_fault (c : Config) (s : State) (occupied : Bool) :
    (s.after c occupied).fault = s.fault := by
  cases occupied <;> rfl

end Sys2Proof.Machine
end

section
/-!
PROOFS. The pipeline commits the reference step's sequence (70_reset_and_hazards.md R239): the simulation. Each latch holds the
word of one state of the reference run or nothing of it, oldest first, and a clock step that commits moves every word one
latch on. What stands behind a taken branch is not of the reference run, until the branch's redirect squashes it.
-/

namespace Sys2Proof

/-- The configuration of R239: forwarding, hazard detection and a squash of all three younger slots. -/
structure Config.Interlocked (c : Config) : Prop where
  fwdEn : c.fwdEn = true
  hduEn : c.hduEn = true
  squash : c.squash.val = 3

end Sys2Proof

namespace Sys2Proof.Machine

/-! ## Which latches hold a fetched word -/

/-- For each latch, whether it holds a word that was fetched: not what reset, a stall or a squash put there. -/
structure Occupancy where
  ifid : Bool
  idex : Bool
  exmem : Bool
  memwb : Bool

/-- No latch holds a fetched word. -/
def Occupancy.empty : Occupancy := ⟨false, false, false, false⟩

/-- A clock step moves the words on; a stall holds IF/ID and puts a bubble into ID/EX, and a redirect squashes the three
younger slots. -/
def Occupancy.next (v : Occupancy) (stalls redirects : Bool) : Occupancy where
  ifid := !redirects && (v.ifid || !stalls)
  idex := !redirects && !stalls && v.ifid
  exmem := !redirects && v.idex
  memwb := v.exmem

/-! ## What a latch holds of a reference state's word -/

/-- The word may run: it was fetched from an aligned PC, and no draw decides its result. -/
structure State.Fetchable (c : Config) (b : State) : Prop where
  aligned : aligned b.pc = true
  determined : Determined c (b.word c)

/-- IF/ID holds the word of `b`. -/
structure State.HoldsInId (c : Config) (s b : State) : Prop extends b.Fetchable c where
  ifid : s.ifid = { instr := b.word c, pc4 := pcPlus4 b.pc }

/-- ID/EX holds the word of `b`, and no load in MEM writes a register it names. -/
structure State.HoldsInEx (c : Config) (s b : State) : Prop extends b.Fetchable c where
  idex : s.idex = s.decoded (b.word c) (pcPlus4 b.pc)
  no_load : s.exmem.memToReg = true → s.exmem.dest ≠ rsOf (b.word c) ∧ s.exmem.dest ≠ rtOf (b.word c)

/-- EX/MEM as EX fills it for the word of `b`, from the registers of `b`. -/
def State.executed (c : Config) (b : State) : ExMem :=
  let k := controlBundle (opcodeOf (b.word c))
  { branch := k.branch, memRead := k.memRead, memWrite := k.memWrite, regWrite := k.regWrite, memToReg := k.memToReg,
    target := branchTarget (pcPlus4 b.pc) (sext32 (immOf (b.word c))), zero := (seqAlu c (b.word c) b).zero,
    aluResult := (seqAlu c (b.word c) b).result, writeData := b.reg (rtOf (b.word c)),
    writeReg := mux2 (rtOf (b.word c)) (rdOf (b.word c)) k.regDst }

/-- EX/MEM holds the word of `b`, whatever it drew. -/
structure State.HoldsInMem (c : Config) (s b : State) : Prop extends b.Fetchable c where
  exmem : ∃ d, s.exmem = (b.drawingAt d).executed c

/-- ID/EX holds a bubble. -/
def IdEx.Bubble (l : IdEx) : Prop := l.ctl.Passive ∧ l.dest = 0#5

/-- EX/MEM holds a bubble. -/
def ExMem.Bubble (l : ExMem) : Prop := l.Passive ∧ l.dest = 0#5

/-! ## The pipeline as a queue of reference states -/

/-- A latch, occupied or not, at the reference state `b`, and what stands behind it: it is empty, and `b`'s word is still
behind it; or it holds `b`'s word, and the next state's word is behind it, unless the word is a taken branch, behind which
is anything. -/
inductive Slot (c : Config) (empty : Prop) (holds behind : State → Prop) : Bool → State → Prop where
  | empty {b : State} : empty → behind b → Slot c empty holds behind false b
  | branch {b : State} : holds b → b.branches c = true → Slot c empty holds behind true b
  | word {b : State} : holds b → b.branches c = false → behind (b.seqNext c) → Slot c empty holds behind true b

/-- IF fetches the word of `b`. -/
structure State.FromIf (s b : State) : Prop where
  imem : s.imem = b.imem
  pc : s.pc = b.pc

/-- IF/ID and what is behind it go on from `b`. -/
def State.FromId (c : Config) (s : State) (v : Occupancy) (b : State) : Prop :=
  Slot c (s.ifid = IfId.cleared) (s.HoldsInId c) s.FromIf v.ifid b

/-- ID/EX and what is behind it go on from `b`. -/
def State.FromEx (c : Config) (s : State) (v : Occupancy) (b : State) : Prop :=
  Slot c s.idex.Bubble (s.HoldsInEx c) (s.FromId c v) v.idex b

/-- EX/MEM and what is behind it go on from `b`. -/
def State.FromMem (c : Config) (s : State) (v : Occupancy) (b : State) : Prop :=
  Slot c s.exmem.Bubble (s.HoldsInMem c) (s.FromEx c v) v.exmem b

/-- The pipeline `s` has retired the words of the reference run up to `a`, and its latches hold the words of the states from
`a` on. The register file is that of `a`; the data memory is that of the state behind the word in MEM/WB, whose register
write this step's WB makes. -/
structure State.Tracks (c : Config) (s : State) (v : Occupancy) (a : State) : Prop where
  fault : s.fault = none
  ref_fault : a.fault = none
  idex_legal : s.idex.ctl.Legal
  determined : ∀ p, aligned p = true → Determined c (codeWord c s p)
  x : s.x = a.x
  imem : s.imem = a.imem
  written : wbFile s = (a.after c v.memwb).x
  dmem : s.dmem = (a.after c v.memwb).dmem
  retires : v.memwb = true → seqStep c a = .next (a.seqNext c)
  pipeline : s.FromMem c v (a.after c v.memwb)

section
variable {c : Config} {e e' : Prop} {h h' bh bh' : State → Prop} {occupied : Bool} {b : State}

theorem Slot.imp (he : e → e') (hh : h b → h' b) (hbh : ∀ b, bh b → bh' b) (hs : Slot c e h bh occupied b) :
    Slot c e' h' bh' occupied b := by
  cases hs with
  | empty hempty hbehind => exact .empty (he hempty) (hbh _ hbehind)
  | branch hholds hbranch => exact .branch (hh hholds) hbranch
  | word hholds hbranch hbehind => exact .word (hh hholds) hbranch (hbh _ hbehind)

theorem Slot.is_empty (hs : Slot c e h bh false b) : e := by
  cases hs with
  | empty hempty _ => exact hempty

theorem Slot.is_held (hs : Slot c e h bh true b) : h b := by
  cases hs with
  | branch hholds _ => exact hholds
  | word hholds _ _ => exact hholds

/-- Behind a slot without a taken branch the reference run goes on. -/
theorem Slot.goes_on (hs : Slot c e h bh occupied b) (hbranch : occupied = true → b.branches c = false) :
    bh (b.after c occupied) := by
  cases hs with
  | empty _ hbehind => exact hbehind
  | branch _ htaken => exact absurd (htaken.symm.trans (hbranch rfl)) (by decide)
  | word _ _ hbehind => exact hbehind

end

/-! ## What a bubble leaves behind it -/

theorem ctl0_bubble {l : IdEx} (h : l.ctl = ctl0) : l.Bubble := by
  rw [IdEx.Bubble, IdEx.dest, h]
  exact ⟨ctl0_passive, rfl⟩

theorem ExMem.squashed_bubble (l : ExMem) : l.squashed.Bubble := ⟨⟨rfl, rfl, rfl⟩, rfl⟩

/-- The zero word, decoded or held back, is a bubble. -/
theorem idExNext_bubble {c : Config} {s : State} (h : s.ifid = IfId.cleared) : (idExNext c s).Bubble := by
  unfold IdEx.Bubble IdEx.dest idExNext
  rw [h]
  cases stall c s <;> exact ⟨⟨rfl, rfl, rfl⟩, rfl⟩

theorem exMemNext_bubble (c : Config) {s : State} (h : s.idex.Bubble) : (exMemNext c s).Bubble := h

/-! ## A step without a redirect: IF to ID, ID to EX -/

/-- Of the legal bundles only that of `lw` writes back what it read. -/
theorem Ctl.Legal.eq_ctlLw_of_memToReg {k : Ctl} (h : k.Legal) (hmem : k.memToReg = true) : k = ctlLw := by
  obtain rfl | rfl | rfl | rfl | rfl | rfl := h
  case inr.inl => rfl
  all_goals cases hmem

/-- A load in EX that does not stall the word in ID writes no register that the word names. -/
theorem exMemNext_dest_of_not_stall {c : Config} {s : State} (hhdu : c.hduEn = true) (hlegal : s.idex.ctl.Legal)
    (hstall : stall c s = false) (hmem : (exMemNext c s).memToReg = true) :
    (exMemNext c s).dest ≠ rsOf s.ifid.instr ∧ (exMemNext c s).dest ≠ rtOf s.ifid.instr := by
  have hload : s.idex.ctl = ctlLw := hlegal.eq_ctlLw_of_memToReg hmem
  have hdest : (exMemNext c s).dest = s.idex.rt := by
    rw [exMemNext_dest, IdEx.dest, hload]
    rfl
  have hno : ¬ (s.idex.rt = rsOf s.ifid.instr ∨ s.idex.rt = rtOf s.ifid.instr) := fun hnamed =>
    Bool.false_ne_true (hstall.symm.trans ((stall_iff c s).mpr ⟨hhdu, by rw [hload]; rfl, hnamed⟩))
  rw [hdest]
  exact not_or.mp hno

/-- The step from `s` commits without a redirect, the bundle in EX is one the decoder makes, and no word of the code writes a
drawn value. -/
structure State.StepsStraight (c : Config) (s : State) : Prop where
  fault : s.fault = none
  stepFaults : stepFaults c s = []
  pcSrc : pcSrc s = false
  idex_legal : s.idex.ctl.Legal
  determined : ∀ p, aligned p = true → Determined c (codeWord c s p)

theorem State.StepsStraight.unimpeded {c : Config} {s : State} (hs : s.StepsStraight c) (hstall : stall c s = false) :
    s.Unimpeded c := ⟨hs.fault, hs.stepFaults, hstall, hs.pcSrc⟩

section
variable {c : Config} {s b : State} {v : Occupancy} (hs : s.StepsStraight c)
include hs

theorem State.FromIf.commit (hstall : stall c s = false) (h : s.FromIf b) :
    (Machine.commit c s).FromId c (v.next false false) b := by
  have hu := hs.unimpeded hstall
  obtain ⟨himem, hpc⟩ := h
  have halign : aligned b.pc = true := hpc ▸ ((stepFaults_eq_nil_iff c s).mp hs.stepFaults).2.2 hstall
  have hword : codeWord c s b.pc = b.word c := by rw [State.word, codeWord, himem, codeWord]
  have hholds : (Machine.commit c s).HoldsInId c b :=
    ⟨⟨halign, hword ▸ hs.determined _ halign⟩, by rw [hu.commit_ifid, hpc, hword]; rfl⟩
  simp only [State.FromId, Occupancy.next, Bool.not_false, Bool.or_true, Bool.and_true]
  cases hbranch : b.branches c with
  | true => exact .branch hholds hbranch
  | false =>
    refine .word hholds hbranch ⟨(commit_imem c s).trans himem, ?_⟩
    rw [hu.commit_pc, hpc, State.seqNext_pc, hbranch]
    rfl

/-- A stall holds IF and ID. -/
theorem State.FromId.commit_held (hstall : stall c s = true) (h : s.FromId c v b) :
    (Machine.commit c s).FromId c (v.next true false) b := by
  obtain ⟨hpc, hifid⟩ := Machine.commit_held hstall hs.pcSrc
  simp only [State.FromId, Occupancy.next, Bool.not_false, Bool.not_true, Bool.or_false, Bool.true_and]
  exact Slot.imp (fun hempty => hifid.trans hempty) (fun hholds => ⟨hholds.toFetchable, hifid.trans hholds.ifid⟩)
    (fun b hb => ⟨(commit_imem c s).trans hb.imem, hpc.trans hb.pc⟩) h

theorem State.HoldsInId.commit (hc : c.Interlocked) (hstall : stall c s = false) (h : s.HoldsInId c b) :
    (Machine.commit c s).HoldsInEx c b := by
  have hu := hs.unimpeded hstall
  have hinstr : s.ifid.instr = b.word c := congrArg IfId.instr h.ifid
  have hpc4 : s.ifid.pc4 = pcPlus4 b.pc := congrArg IfId.pc4 h.ifid
  refine ⟨h.toFetchable, ?_, ?_⟩
  · rw [hu.commit_idex, idExNext, hstall, State.decoded, State.reg_commit, State.reg_commit, hinstr, hpc4, idAccess, hinstr]
    rfl
  · rw [hu.commit_exmem, ← hinstr]
    exact exMemNext_dest_of_not_stall hc.hduEn hs.idex_legal hstall

theorem State.FromId.commit (hc : c.Interlocked) (h : s.FromId c v b) :
    (Machine.commit c s).FromEx c (v.next (stall c s) false) b := by
  cases hstall : stall c s with
  | true => exact .empty (ctl0_bubble (by rw [commit_idex_ctl, if_pos (.inl hstall)])) (h.commit_held hs hstall)
  | false =>
    refine Slot.imp (fun hempty => ?_) (State.HoldsInId.commit hs hc hstall) (fun _ => State.FromIf.commit hs hstall) h
    rw [(hs.unimpeded hstall).commit_idex]
    exact idExNext_bubble hempty

end

/-! ## EX to MEM -/

/-- An instruction in MEM has the destination `r` where the forwarding unit takes it for a source of `r` (R140). -/
theorem ExMem.dest_eq_iff (l : ExMem) (r : RegIdx) :
    (r = l.dest ∧ l.dest ≠ 0#5) ↔ (l.regWrite = true ∧ l.writeReg ≠ 0#5 ∧ l.writeReg = r) := by
  unfold ExMem.dest
  cases l.regWrite
  · simp
  · simp [and_comm, eq_comm (a := r)]

theorem wbFile_commit (c : Config) (s : State) :
    wbFile (commit c s) = (wbFile s).write s.exmem.dest (wbValue (commit c s)) := by
  rw [wbFile_eq_write, commit_x, commit_memwb, memWbNext_dest]

/-- What an instruction in MEM that is no load writes back is its ALU result. -/
theorem wbValue_commit (c : Config) {s : State} (h : s.exmem.memToReg = false) :
    wbValue (commit c s) = s.exmem.aluResult := by
  rw [wbValue_eq, commit_memwb, memWbNext, h]
  rfl

/-- EX gets for a register that no load in MEM writes the value that it has once the instructions in MEM and WB have written
back (R231, R232). -/
theorem forwardMux_eq_read {c : Config} {s : State} (hfwd : c.fwdEn = true) {r : RegIdx}
    (hload : s.exmem.memToReg = true → s.exmem.dest ≠ r) :
    (forwardMux s (s.reg r) (forwardSelect c s r)).getD (s.reg r) = (wbFile (commit c s)).read r := by
  have hselect := forwardSelect_eq c s r
  simp only [hfwd, Bool.true_eq_false, if_false, ← ExMem.dest_eq_iff] at hselect
  rw [forwardMux_select, hselect, wbFile_commit, RegFile.read_write, wbFile_read]
  by_cases hmem : r = s.exmem.dest ∧ s.exmem.dest ≠ 0#5
  · have hnoload : s.exmem.memToReg = false := Bool.not_eq_true _ ▸ fun h => hload h hmem.1.symm
    simp only [if_pos hmem, if_true, wbValue_commit c hnoload]
  · rw [if_neg hmem, if_neg hmem]
    simp only [eq_comm (a := r)]
    by_cases hwb : s.memwb.regWrite = true ∧ s.memwb.writeReg ≠ 0#5 ∧ s.memwb.writeReg = r
    · rw [if_pos hwb, if_pos hwb]
      rfl
    · rw [if_neg hwb, if_neg hwb]
      rfl

section
variable {c : Config} {s b : State} (hc : c.Interlocked) (hx : wbFile (Machine.commit c s) = b.x)
include hc hx

theorem State.HoldsInEx.operandA_eq (h : s.HoldsInEx c b) : operandA c s = b.reg (rsOf (b.word c)) := by
  rw [operandA, forwardA, h.idex]
  exact (forwardMux_eq_read hc.fwdEn fun hmem => (h.no_load hmem).1).trans (congrArg (RegFile.read · _) hx)

theorem State.HoldsInEx.operandBF_eq (h : s.HoldsInEx c b) : operandBF c s = b.reg (rtOf (b.word c)) := by
  rw [operandBF, forwardB, h.idex]
  exact (forwardMux_eq_read hc.fwdEn fun hmem => (h.no_load hmem).2).trans (congrArg (RegFile.read · _) hx)

/-- EX computes what the reference step computes. -/
theorem State.HoldsInEx.exMemNext_eq (h : s.HoldsInEx c b) : exMemNext c s = (b.drawingAt s.draws).executed c := by
  have halu : exAlu c s = seqAlu c (b.word c) (b.drawingAt s.draws) := by
    rw [exAlu, operandB, h.operandA_eq hc hx, h.operandBF_eq hc hx, h.idex]
    rfl
  rw [exMemNext, halu, h.operandBF_eq hc hx, h.idex]
  rfl

theorem State.FromEx.commit {v : Occupancy} (hs : s.StepsStraight c) (h : s.FromEx c v b) :
    (Machine.commit c s).FromMem c (v.next (stall c s) false) b := by
  have hexmem : (Machine.commit c s).exmem = exMemNext c s := commit_exmem_of_not_squashed (by simp [hs.pcSrc])
  refine Slot.imp (fun hbubble => ?_) (fun hholds => ⟨hholds.toFetchable, s.draws, ?_⟩)
    (fun _ => State.FromId.commit hs hc) h
  · rw [hexmem]
    exact exMemNext_bubble c hbubble
  · rw [hexmem, hholds.exMemNext_eq hc hx]

end

/-! ## The redirect of a taken branch -/

/-- With all three younger slots squashed, the pipeline goes on from the target alone. -/
theorem fromMem_commit_of_redirect {c : Config} {s b : State} {v : Occupancy} (hk : c.squash.val = 3)
    (hsrc : pcSrc s = true) (himem : s.imem = b.imem) (htarget : s.exmem.target = b.pc) (stalls : Bool) :
    (commit c s).FromMem c (v.next stalls true) b := by
  have hdeep : 2 ≤ c.squash.val := by omega
  have hexmem : (commit c s).exmem = (exMemNext c s).squashed := by rw [commit_exmem, if_pos ⟨hsrc, hk⟩]
  have hidex : (commit c s).idex.ctl = ctl0 := by rw [commit_idex_ctl, if_pos (.inr ⟨hsrc, hdeep⟩)]
  have hifid : (commit c s).ifid = IfId.cleared := by rw [commit_ifid, if_pos ⟨hsrc, .inl hdeep⟩]
  have hpc : (commit c s).pc = b.pc := by rw [commit_pc, if_pos ⟨hsrc, hdeep⟩, htarget]
  exact .empty (hexmem ▸ ExMem.squashed_bubble _) (.empty (ctl0_bubble hidex)
    (.empty hifid ⟨(commit_imem c s).trans himem, hpc⟩))

/-! ## MEM to WB -/

section
variable {c : Config} {s b : State} (h : s.HoldsInMem c b)
include h

theorem State.HoldsInMem.pcSrc_eq : pcSrc s = b.branches c := by
  obtain ⟨-, d, hexmem⟩ := h
  rw [pcSrc, hexmem, ← State.branches_drawingAt c b d]
  rfl

theorem State.HoldsInMem.target_eq (hbranch : b.branches c = true) : s.exmem.target = (b.seqNext c).pc := by
  obtain ⟨-, d, hexmem⟩ := h
  rw [hexmem, State.seqNext_pc, hbranch]
  rfl

section
variable (hdmem : s.dmem = b.dmem)
include hdmem

theorem State.HoldsInMem.dmemAccess_eq : dmemAccess c s = seqAccess c (b.word c) b := by
  obtain ⟨-, d, hexmem⟩ := h
  rw [dmemAccess, hexmem, hdmem, ← seqAccess_drawingAt b d]
  rfl

theorem State.HoldsInMem.commit_dmem : (commit c s).dmem = (b.seqNext c).dmem := by
  rw [Machine.commit_dmem, h.dmemAccess_eq hdmem, hdmem]
  rfl

variable (hnil : stepFaults c s = [])
include hnil

theorem State.HoldsInMem.seqFaults_eq : seqFaults c (b.word c) b = [] := by
  obtain ⟨hmem, -⟩ := List.append_eq_nil_iff.mp ((stepFaults_eq c s).symm.trans hnil)
  have haccess := h.dmemAccess_eq hdmem
  obtain ⟨-, d, hexmem⟩ := h
  rw [haccess, hexmem, ← seqAccess_drawingAt b d] at hmem
  rwa [← seqFaults_drawingAt b d]

theorem State.HoldsInMem.seqStep_eq (hb : b.fault = none) : seqStep c b = .next (b.seqNext c) :=
  seqStep_eq_next hb h.aligned (h.seqFaults_eq hdmem hnil)

/-- WB writes the register that the reference step writes. -/
theorem State.HoldsInMem.wbFile_commit_eq (hx : wbFile s = b.x) : wbFile (commit c s) = (b.seqNext c).x := by
  have hfaults := h.seqFaults_eq hdmem hnil
  have haccess := h.dmemAccess_eq hdmem
  obtain ⟨hfetch, d, hexmem⟩ := h
  have hfile : (b.seqNext c).x = seqFile c (b.word c) (b.drawingAt d) :=
    (seqFile_drawingAt hfetch.determined hfaults d).symm
  rw [hfile, wbFile, wbValue, commit_x, hx, commit_memwb, memWbNext, haccess, hexmem, ← seqAccess_drawingAt b d]
  exact congrArg (fun v => (b.x.access (rsOf (b.word c)) (rtOf (b.word c)) _ v _).file)
    (seqAccess_written_eq ((seqFaults_drawingAt b d).trans hfaults) ..)

end

end

/-- A bubble in MEM: WB of the next step writes no register. -/
theorem wbFile_commit_of_bubble (c : Config) {s : State} (h : s.exmem.Bubble) : wbFile (commit c s) = wbFile s := by
  rw [wbFile_commit, h.2, RegFile.write_zero]

/-! ## The step -/

section
variable {c : Config} {s a : State} {v : Occupancy} (hnil : stepFaults c s = []) (h : s.Tracks c v a)
include hnil h

/-- What MEM/WB holds after the step is what EX/MEM held. -/
theorem State.Tracks.commit_memwb :
    wbFile (commit c s) = ((a.after c v.memwb).after c v.exmem).x ∧
      (commit c s).dmem = ((a.after c v.memwb).after c v.exmem).dmem ∧
      (v.exmem = true → seqStep c (a.after c v.memwb) = .next ((a.after c v.memwb).seqNext c)) := by
  have hpipeline := h.pipeline
  unfold State.FromMem at hpipeline
  cases hv : v.exmem with
  | false =>
    rw [hv] at hpipeline
    have hbubble := hpipeline.is_empty
    exact ⟨(wbFile_commit_of_bubble c hbubble).trans h.written,
      (commit_dmem_of_no_store hbubble.1.2.1).trans h.dmem, nofun⟩
  | true =>
    rw [hv] at hpipeline
    have hholds := hpipeline.is_held
    exact ⟨hholds.wbFile_commit_eq h.dmem hnil h.written, hholds.commit_dmem h.dmem,
      fun _ => hholds.seqStep_eq h.dmem hnil ((State.after_fault ..).trans h.ref_fault)⟩

/-- What the other latches hold after the step. -/
theorem State.Tracks.commit_pipeline (hc : c.Interlocked) :
    (commit c s).FromMem c (v.next (stall c s) (pcSrc s)) ((a.after c v.memwb).after c v.exmem) := by
  have hpipeline := h.pipeline
  unfold State.FromMem at hpipeline
  cases hsrc : pcSrc s with
  | false =>
    have hex := hpipeline.goes_on fun hv => by
      rw [hv] at hpipeline
      rw [← hpipeline.is_held.pcSrc_eq, hsrc]
    exact hex.commit hc (h.commit_memwb hnil).1 ⟨h.fault, hnil, hsrc, h.idex_legal, h.determined⟩
  | true =>
    cases hv : v.exmem with
    | false =>
      rw [hv] at hpipeline
      exact absurd (exmem_branch_of_pcSrc hsrc) (by simp [hpipeline.is_empty.1.2.2])
    | true =>
      rw [hv] at hpipeline
      have hholds := hpipeline.is_held
      refine fromMem_commit_of_redirect hc.squash hsrc ?_ (hholds.target_eq (hholds.pcSrc_eq ▸ hsrc)) _
      simp [h.imem]

/-- A step that commits retires the word in MEM/WB, and the pipeline tracks the reference run on from there. -/
theorem State.Tracks.commit (hc : c.Interlocked) :
    (Machine.commit c s).Tracks c (v.next (stall c s) (pcSrc s)) (a.after c v.memwb) := by
  obtain ⟨hwritten, hdmem, hretires⟩ := h.commit_memwb hnil
  exact {
    fault := (commit_fault c s).trans h.fault
    ref_fault := (State.after_fault ..).trans h.ref_fault
    idex_legal := by
      rw [commit_idex_ctl]
      split_ifs
      · exact ctl0_legal
      · exact controlBundle_cases _
    determined := fun p hp => codeWord_commit c s p ▸ h.determined p hp
    x := (commit_x c s).trans h.written
    imem := (commit_imem c s).trans (h.imem.trans (State.after_imem ..).symm)
    written := hwritten
    dmem := hdmem
    retires := hretires
    pipeline := h.commit_pipeline hnil hc }

end

/-- An empty pipeline tracks the reference run from its own state. -/
theorem State.EmptyPipeline.tracks {c : Config} {s : State} (h : s.EmptyPipeline)
    (hdet : ∀ p, aligned p = true → Determined c (codeWord c s p)) : s.Tracks c .empty s where
  fault := h.fault
  ref_fault := h.fault
  idex_legal := h.idex ▸ ctl0_legal
  determined := hdet
  x := rfl
  imem := rfl
  written := by
    rw [wbFile_eq_write, h.memwb]
    rfl
  dmem := rfl
  retires := nofun
  pipeline := .empty (h.exmem ▸ ExMem.squashed_bubble ExMem.cleared) (.empty (ctl0_bubble (by rw [h.idex]; rfl))
    (.empty h.ifid ⟨rfl, rfl⟩))

end Sys2Proof.Machine
end

section
/-!
PROOFS. The pipeline commits the reference step's sequence (70_reset_and_hazards.md R239): the count of retired reference
steps, and how long the oldest word in the pipeline can take to retire (R241).
-/

namespace Sys2Proof.Machine

/-! ## How far the oldest word is from its retirement -/

/-- The number of steps to the end of the write-back of the oldest word: the word that IF fetches, where every latch is
empty. -/
def Occupancy.lag (v : Occupancy) : Nat :=
  if v.memwb then 1 else if v.exmem then 2 else if v.idex then 3 else if v.ifid then 4 else 5

theorem Occupancy.lag_pos (v : Occupancy) : 1 ≤ v.lag := by
  unfold Occupancy.lag
  split_ifs <;> omega

theorem Occupancy.lag_of_memwb {v : Occupancy} (h : v.memwb = true) : v.lag = 1 := if_pos h

/-- A word in MEM is the only one that redirects, and a word in EX the only one that stalls: nothing holds back the oldest
word. -/
structure Occupancy.Permits (v : Occupancy) (stalls redirects : Bool) : Prop where
  redirects : v.exmem = false → redirects = false
  stalls : v.exmem = false → v.idex = false → stalls = false

theorem Occupancy.lag_next_le_four {v : Occupancy} {stalls redirects : Bool} (h : v.Permits stalls redirects) :
    (v.next stalls redirects).lag ≤ 4 := by
  obtain ⟨ifid, idex, exmem, memwb⟩ := v
  obtain ⟨hredirects, hstalls⟩ := h
  revert ifid idex exmem memwb stalls redirects
  decide

theorem Occupancy.lag_next_lt {v : Occupancy} {stalls redirects : Bool} (h : v.Permits stalls redirects)
    (hmemwb : v.memwb = false) : (v.next stalls redirects).lag < v.lag := by
  obtain ⟨ifid, idex, exmem, memwb⟩ := v
  obtain ⟨hredirects, hstalls⟩ := h
  revert ifid idex exmem memwb stalls redirects
  decide

theorem State.Tracks.permits {c : Config} {s a : State} {v : Occupancy} (h : s.Tracks c v a) :
    v.Permits (stall c s) (pcSrc s) where
  redirects hexmem := by
    have hpipeline := h.pipeline
    rw [State.FromMem, hexmem] at hpipeline
    exact pcSrc_of_not_branch hpipeline.is_empty.1.2.2
  stalls hexmem hidex := by
    have hpipeline := h.pipeline
    rw [State.FromMem, hexmem] at hpipeline
    have hex := hpipeline.goes_on nofun
    rw [State.FromEx, hidex] at hex
    exact stall_of_not_load hex.is_empty.1.1 c

/-! ## The count -/

/-- How many words retire in the first `n` steps from `s`: one in each step with a word in MEM/WB. A step that faults
retires none; behind it there is no step, and the count goes on by one each. -/
def retired (c : Config) : Nat → State → Occupancy → Nat
  | 0, _, _ => 0
  | n + 1, s, v =>
    if stepFaults c s = [] then v.memwb.toNat + retired c n (commit c s) (v.next (stall c s) (pcSrc s)) else n

section
variable {c : Config} {n : Nat} {s : State} {v : Occupancy}

@[simp] theorem retired_zero : retired c 0 s v = 0 := rfl

theorem retired_succ_of_commit (h : stepFaults c s = []) :
    retired c (n + 1) s v = v.memwb.toNat + retired c n (commit c s) (v.next (stall c s) (pcSrc s)) := if_pos h

theorem retired_succ_of_fault (h : stepFaults c s ≠ []) : retired c (n + 1) s v = n := if_neg h

theorem retired_le_retired_succ : retired c n s v ≤ retired c (n + 1) s v := by
  induction n generalizing s v with
  | zero => exact Nat.zero_le _
  | succ n ih =>
    by_cases h : stepFaults c s = []
    · rw [retired_succ_of_commit h, retired_succ_of_commit h]
      exact Nat.add_le_add_left ih _
    · rw [retired_succ_of_fault h, retired_succ_of_fault h]
      exact Nat.le_succ n

theorem retired_succ_le : retired c (n + 1) s v ≤ retired c n s v + 1 := by
  induction n generalizing s v with
  | zero =>
    by_cases h : stepFaults c s = []
    · rw [retired_succ_of_commit h]
      exact Nat.add_le_add_right (Bool.toNat_le _) 0
    · rw [retired_succ_of_fault h]
      exact Nat.zero_le _
  | succ n ih =>
    by_cases h : stepFaults c s = []
    · rw [retired_succ_of_commit h, retired_succ_of_commit h, Nat.add_assoc]
      exact Nat.add_le_add_left ih _
    · rw [retired_succ_of_fault h, retired_succ_of_fault h]

/-- After the first word, whose retirement takes the lag, one retires at least every four steps. -/
theorem State.Tracks.le_four_mul_retired {a : State} (hc : c.Interlocked) (h : s.Tracks c v a) :
    n ≤ 4 * retired c n s v + v.lag := by
  induction n generalizing s v a with
  | zero => exact Nat.zero_le _
  | succ n ih =>
    by_cases hnil : stepFaults c s = []
    · have hn := ih (h.commit hnil hc)
      rw [retired_succ_of_commit hnil]
      cases hmemwb : v.memwb with
      | true =>
        have hlag := Occupancy.lag_next_le_four h.permits
        rw [Occupancy.lag_of_memwb hmemwb, Bool.toNat_true]
        omega
      | false =>
        have hlag := Occupancy.lag_next_lt h.permits hmemwb
        rw [Bool.toNat_false]
        omega
    · have hlag := v.lag_pos
      rw [retired_succ_of_fault hnil]
      omega

/-- The pipeline holds the registers of the reference state it tracks, and the data memory of that state or of the next. -/
def State.CommitsAt (c : Config) (t a : State) : Prop :=
  t.x = a.x ∧ (t.dmem = a.dmem ∨ ∃ b, seqStep c a = .next b ∧ t.dmem = b.dmem)

theorem State.Tracks.commitsAt {a : State} (h : s.Tracks c v a) : s.CommitsAt c a := by
  refine ⟨h.x, ?_⟩
  have hdmem := h.dmem
  cases hmemwb : v.memwb with
  | false => exact .inl (by rwa [hmemwb] at hdmem)
  | true => exact .inr ⟨_, h.retires hmemwb, by rwa [hmemwb] at hdmem⟩

theorem State.Tracks.seqRun_succ {a : State} (h : s.Tracks c v a) :
    seqRun c (v.memwb.toNat + n) a = seqRun c n (a.after c v.memwb) := by
  cases hmemwb : v.memwb with
  | false => rw [Bool.toNat_false, Nat.zero_add, State.after_false]
  | true => rw [Bool.toNat_true, Nat.add_comm, Machine.seqRun_succ (h.retires hmemwb), State.after_true]

theorem State.Tracks.run {a t : State} (hc : c.Interlocked) (h : s.Tracks c v a) (ht : clockRun c n s = .next t) :
    ∃ b, seqRun c (retired c n s v) a = .next b ∧ t.CommitsAt c b := by
  induction n generalizing s v a with
  | zero =>
    cases ht
    exact ⟨a, rfl, h.commitsAt⟩
  | succ n ih =>
    by_cases hnil : stepFaults c s = []
    · rw [clockRun_succ (clock_of_no_fault h.fault hnil)] at ht
      rw [retired_succ_of_commit hnil, h.seqRun_succ]
      exact ih (h.commit hnil hc) ht
    · have hclock : clock c s = .next (s.raise (stepFaults c s)) := by rw [clock_of_none h.fault, if_neg hnil]
      rw [clockRun_succ hclock] at ht
      cases n with
      | zero =>
        cases ht
        rw [retired_succ_of_fault hnil]
        exact ⟨a, rfl, h.commitsAt⟩
      | succ n =>
        rw [clockRun, clock_of_some (State.raise_fault ..)] at ht
        cases ht

end

/-- Settles O55: an empty pipeline tracks the reference run from its own state (`State.EmptyPipeline.tracks`), and every step
that commits goes on tracking it (`State.Tracks.commit`); the count is `retired`. -/
theorem pipelineCommitsTheReferenceSequence : Obligations.PipelineCommitsTheReferenceSequence := by
  intro c s hfwd hhdu hsquash hempty hdet
  have hc : c.Interlocked := ⟨hfwd, hhdu, hsquash⟩
  have htracks := hempty.tracks hdet
  exact ⟨fun n => retired c n s .empty, rfl,
    fun n => ⟨retired_le_retired_succ, retired_succ_le, htracks.le_four_mul_retired hc⟩,
    fun n t ht => htracks.run hc ht⟩

end Sys2Proof.Machine
end
